-- ==== Sys2Proof/Word.lean ====
section
/-! DEFINITION. The word types of the machine (spec/00_scope.md rules R5, R8): every value is unsigned. -/

namespace Sys2Proof

/-- An 8-bit value: a general register, a timer, a memory cell (R5 `XLEN`). -/
abbrev Byte := BitVec 8

/-- A 16-bit value: an instruction word (R70). -/
abbrev Word := BitVec 16

/-- A 16-bit address register value: PC, I, a stack entry (R5 `ILEN`, `PCLEN`). It may lie above 0xFFF. -/
abbrev Addr := BitVec 16

end Sys2Proof
end

