-- ==== Sys2Proof/Syntax.lean ====
section
/-! DEFINITION. The instruction set: one constructor per row of the opcode table (spec/30_encoding.md rule R74). -/

namespace Sys2Proof

/-- A general register number 0..15 (R20, R73). -/
abbrev Reg := Fin 16

/-- The 34 instructions, in the table's order. `x`, `y` are register numbers, `kk` an 8-bit immediate, `nnn` a 12-bit
address, `n` a row count 0..15 (R71). Every value of every field is legal (R73), and the operand types hold exactly
those values. `shr` and `shl` keep the field `y` they ignore (R128, R130), so that no bit of a word is dropped. -/
inductive Instr where
  | cls
  | ret
  | jp (nnn : BitVec 12)
  | call (nnn : BitVec 12)
  | seImm (x : Reg) (kk : Byte)
  | sneImm (x : Reg) (kk : Byte)
  | seReg (x y : Reg)
  | ldImm (x : Reg) (kk : Byte)
  | addImm (x : Reg) (kk : Byte)
  | ldReg (x y : Reg)
  | orReg (x y : Reg)
  | andReg (x y : Reg)
  | xorReg (x y : Reg)
  | addReg (x y : Reg)
  | subReg (x y : Reg)
  | shr (x y : Reg)
  | subnReg (x y : Reg)
  | shl (x y : Reg)
  | sneReg (x y : Reg)
  | ldI (nnn : BitVec 12)
  | jpV0 (nnn : BitVec 12)
  | rnd (x : Reg) (kk : Byte)
  | drw (x y : Reg) (n : Fin 16)
  | skp (x : Reg)
  | sknp (x : Reg)
  | ldVxDt (x : Reg)
  | ldVxK (x : Reg)
  | ldDtVx (x : Reg)
  | ldStVx (x : Reg)
  | addI (x : Reg)
  | ldF (x : Reg)
  | ldB (x : Reg)
  | stBlock (x : Reg)
  | ldBlock (x : Reg)
  deriving DecidableEq, Repr

end Sys2Proof
end

