-- ==== Sys2Proof/Decode.lean ====
section
/-! DEFINITION. The decoder (spec/30_encoding.md rules R70 to R77) and, after it, the encoder, both over the fields of rule R71. -/

namespace Sys2Proof

/-- Why the decoder answers no instruction. -/
inductive DecodeReject where
  /-- The word matches no row of the opcode table (R75): a STEP that fetches it takes DecodeError (R92). -/
  | illegalWord (w : Word)
  /-- Fewer than the two bytes every instruction has (R70) were given. Never met by a fetch, which reads two bytes. -/
  | truncated
  deriving DecidableEq, Repr

/-! ### Fields of a word (R71) -/

/-- `op = w[15:12]`, the opcode family. -/
def fieldOp (w : Word) : Nat := (w.extractLsb' 12 4).toNat

/-- `x = w[11:8]`. -/
def fieldX (w : Word) : Reg := (w.extractLsb' 8 4).toFin

/-- `y = w[7:4]`. -/
def fieldY (w : Word) : Reg := (w.extractLsb' 4 4).toFin

/-- `n = w[3:0]`. -/
def fieldN (w : Word) : Fin 16 := (w.extractLsb' 0 4).toFin

/-- `nnn = w[11:0]`. -/
def fieldNnn (w : Word) : BitVec 12 := w.extractLsb' 0 12

/-- `kk = w[7:0]`. -/
def fieldKk (w : Word) : Byte := w.extractLsb' 0 8

/-! ### The decode procedure (R77), family by family -/

/-- Family 0: only the two whole words 00E0 and 00EE. -/
def decodeFamily0 (w : Word) : Except DecodeReject Instr :=
  if w = 0x00E0 then .ok .cls else if w = 0x00EE then .ok .ret else .error (.illegalWord w)

/-- Family 8: the sub-opcode is `n`. -/
def decodeFamily8 (w : Word) : Except DecodeReject Instr :=
  match (fieldN w).val with
  | 0x0 => .ok (.ldReg (fieldX w) (fieldY w))
  | 0x1 => .ok (.orReg (fieldX w) (fieldY w))
  | 0x2 => .ok (.andReg (fieldX w) (fieldY w))
  | 0x3 => .ok (.xorReg (fieldX w) (fieldY w))
  | 0x4 => .ok (.addReg (fieldX w) (fieldY w))
  | 0x5 => .ok (.subReg (fieldX w) (fieldY w))
  | 0x6 => .ok (.shr (fieldX w) (fieldY w))
  | 0x7 => .ok (.subnReg (fieldX w) (fieldY w))
  | 0xE => .ok (.shl (fieldX w) (fieldY w))
  | _ => .error (.illegalWord w)

/-- Family E: the sub-opcode is `kk`. -/
def decodeFamilyE (w : Word) : Except DecodeReject Instr :=
  match (fieldKk w).toNat with
  | 0x9E => .ok (.skp (fieldX w))
  | 0xA1 => .ok (.sknp (fieldX w))
  | _ => .error (.illegalWord w)

/-- Family F: the sub-opcode is `kk`. -/
def decodeFamilyF (w : Word) : Except DecodeReject Instr :=
  match (fieldKk w).toNat with
  | 0x07 => .ok (.ldVxDt (fieldX w))
  | 0x0A => .ok (.ldVxK (fieldX w))
  | 0x15 => .ok (.ldDtVx (fieldX w))
  | 0x18 => .ok (.ldStVx (fieldX w))
  | 0x1E => .ok (.addI (fieldX w))
  | 0x29 => .ok (.ldF (fieldX w))
  | 0x33 => .ok (.ldB (fieldX w))
  | 0x55 => .ok (.stBlock (fieldX w))
  | 0x65 => .ok (.ldBlock (fieldX w))
  | _ => .error (.illegalWord w)

/-- R77: the decode procedure, total on all 65536 words. The family is 4 bits, so the last row is family F. -/
def decode (w : Word) : Except DecodeReject Instr :=
  match fieldOp w with
  | 0x0 => decodeFamily0 w
  | 0x1 => .ok (.jp (fieldNnn w))
  | 0x2 => .ok (.call (fieldNnn w))
  | 0x3 => .ok (.seImm (fieldX w) (fieldKk w))
  | 0x4 => .ok (.sneImm (fieldX w) (fieldKk w))
  | 0x5 => if (fieldN w).val = 0 then .ok (.seReg (fieldX w) (fieldY w)) else .error (.illegalWord w)
  | 0x6 => .ok (.ldImm (fieldX w) (fieldKk w))
  | 0x7 => .ok (.addImm (fieldX w) (fieldKk w))
  | 0x8 => decodeFamily8 w
  | 0x9 => if (fieldN w).val = 0 then .ok (.sneReg (fieldX w) (fieldY w)) else .error (.illegalWord w)
  | 0xA => .ok (.ldI (fieldNnn w))
  | 0xB => .ok (.jpV0 (fieldNnn w))
  | 0xC => .ok (.rnd (fieldX w) (fieldKk w))
  | 0xD => .ok (.drw (fieldX w) (fieldY w) (fieldN w))
  | 0xE => decodeFamilyE w
  | _ => decodeFamilyF w

/-- R54, R70: a word from its two bytes, the high byte first. -/
def wordOfBytes (hi lo : Byte) : Word := hi ++ lo

/-- The high byte of a word: the byte the hardware keeps at the lower address (R54). -/
def hiByte (w : Word) : Byte := w.extractLsb' 8 8

/-- The low byte of a word: the byte at the higher address (R54). -/
def loByte (w : Word) : Byte := w.extractLsb' 0 8

/-- The decoder on any bytes: the first instruction and the bytes after it, or the reason there is none. -/
def decodeBytes : List Byte → Except DecodeReject (Instr × List Byte)
  | hi :: lo :: rest =>
    match decode (wordOfBytes hi lo) with
    | .ok i => .ok (i, rest)
    | .error r => .error r
  | _ => .error .truncated

/-! ### The encoder: the pattern of each row of R74 with its fields filled in, nibble by nibble (R72) -/

/-- Format A, `onnn`. -/
def formatA (op : Nat) (nnn : BitVec 12) : Word := BitVec.ofNat 16 (op * 0x1000 + nnn.toNat)

/-- Format XK, `oxkk`. -/
def formatXK (op : Nat) (x : Reg) (kk : Byte) : Word := BitVec.ofNat 16 (op * 0x1000 + x.val * 0x100 + kk.toNat)

/-- Format XYN, `oxyn`; format XY, `oxys`, is the same shape with a fixed last nibble. -/
def formatXYN (op : Nat) (x y : Reg) (n : Nat) : Word :=
  BitVec.ofNat 16 (op * 0x1000 + x.val * 0x100 + y.val * 0x10 + n)

/-- Format X, `oxss`, with a fixed last byte. -/
def formatX (op : Nat) (x : Reg) (sub : Nat) : Word := BitVec.ofNat 16 (op * 0x1000 + x.val * 0x100 + sub)

/-- The word of an instruction (R74). -/
def encode : Instr → Word
  | .cls => 0x00E0
  | .ret => 0x00EE
  | .jp nnn => formatA 0x1 nnn
  | .call nnn => formatA 0x2 nnn
  | .seImm x kk => formatXK 0x3 x kk
  | .sneImm x kk => formatXK 0x4 x kk
  | .seReg x y => formatXYN 0x5 x y 0x0
  | .ldImm x kk => formatXK 0x6 x kk
  | .addImm x kk => formatXK 0x7 x kk
  | .ldReg x y => formatXYN 0x8 x y 0x0
  | .orReg x y => formatXYN 0x8 x y 0x1
  | .andReg x y => formatXYN 0x8 x y 0x2
  | .xorReg x y => formatXYN 0x8 x y 0x3
  | .addReg x y => formatXYN 0x8 x y 0x4
  | .subReg x y => formatXYN 0x8 x y 0x5
  | .shr x y => formatXYN 0x8 x y 0x6
  | .subnReg x y => formatXYN 0x8 x y 0x7
  | .shl x y => formatXYN 0x8 x y 0xE
  | .sneReg x y => formatXYN 0x9 x y 0x0
  | .ldI nnn => formatA 0xA nnn
  | .jpV0 nnn => formatA 0xB nnn
  | .rnd x kk => formatXK 0xC x kk
  | .drw x y n => formatXYN 0xD x y n.val
  | .skp x => formatX 0xE x 0x9E
  | .sknp x => formatX 0xE x 0xA1
  | .ldVxDt x => formatX 0xF x 0x07
  | .ldVxK x => formatX 0xF x 0x0A
  | .ldDtVx x => formatX 0xF x 0x15
  | .ldStVx x => formatX 0xF x 0x18
  | .addI x => formatX 0xF x 0x1E
  | .ldF x => formatX 0xF x 0x29
  | .ldB x => formatX 0xF x 0x33
  | .stBlock x => formatX 0xF x 0x55
  | .ldBlock x => formatX 0xF x 0x65

/-- An instruction as the bytes memory holds, lowest address first (R54). -/
def encodeBytes (i : Instr) : List Byte := [hiByte (encode i), loByte (encode i)]

/-- The low `nbits` bits of `w`, as the one 16-bit word an instruction has (R70): the bits above are 0. -/
def tableWord (nbits w : Nat) : Word := BitVec.ofNat 16 (w % 2 ^ nbits)

/-- The instruction the decoder reads from a word numbered as the opcode table numbers it. -/
def decodeTableWord (nbits w : Nat) : Option Instr :=
  match decodeBytes [hiByte (tableWord nbits w), loByte (tableWord nbits w)] with
  | .ok (i, _) => some i
  | .error _ => none

end Sys2Proof
end

