-- ==== Sys2Proof/Config.lean ====
section
/-! DEFINITION. The fixed numbers of spec/00_scope.md rule R5 and the free value of rule R6 (`RND`).
The parameter `FONT` of R6 is a field of State, for which Machine/Font.lean gives the default; `IPT` is the host's and is read by
nothing. -/

namespace Sys2Proof.Config

/-- R5 `MEM_SIZE`: bytes of memory, addresses 0x000 to 0xFFF. -/
abbrev memSize : Nat := 0x1000

/-- R5 `PROG_BASE`: load address and reset value of PC. -/
abbrev progBase : Nat := 0x200

/-- R5 `MAX_IMAGE`: the largest program image in bytes. -/
abbrev maxImage : Nat := 3584

/-- The random byte of the `n`-th executed Cxkk for which the host named none: a free value, any byte
(R131, U1, D18). It has no body, so nothing can be proved of it. Log entry 2. -/
opaque freeRnd : Nat → Byte

end Sys2Proof.Config

namespace Sys2Proof

/-- R6, R52: the type of the parameter `FONT`: 16 glyphs of 5 bytes. -/
abbrev Font := Vector Byte 80

end Sys2Proof
end

