-- ==== Sys2Proof/Machine/State.lean ====
section
/-! DEFINITION. The machine's state as plain data (spec/10_state.md), the reasons a step can stop, and the state after reset
(rule R40). -/

namespace Sys2Proof.Machine

/-- R31: the run state. -/
inductive RunState where
  | running
  | halted
  deriving DecidableEq, Repr

/-- R7, R37: the five events by which the host acts on the core. -/
inductive HostEvent where
  | reset
  | load (image : List Byte)
  | step (rnd : Byte)
  | tick
  | key (code : Fin 16) (down : Bool)
  deriving DecidableEq, Repr

/-- R170: the machine's five error conditions, by the spec's names. The first four are TAKEN by the step that raises them
(fault entry, R176): a next state whose fault record names the cause. So no step answers `Outcome.fault` with one; the names
serve as the cause of a fault entry. -/
inductive Fault where
  /-- Raised by a STEP whose word matches no row of the opcode table (R171). Safe: the spec's own fault entry. -/
  | decodeError
  /-- Raised by CALL with 16 entries on the stack (R172). Safe: the spec's own fault entry. -/
  | stackOverflow
  /-- Raised by RET with an empty stack (R173). Safe: the spec's own fault entry. -/
  | stackUnderflow
  /-- Raised by the fetch, DRW, LD B, LD [I] and LD Vx,[I] beyond 0xFFF (R174). Safe: the spec's own fault entry. -/
  | addressOutOfRange
  /-- Raised by a LOAD event with too long an image (R175): reported on `ldError`, never latched. Safe: no state changes. -/
  | loadError
  deriving DecidableEq, Repr

/-- Why an instruction has no meaning. -/
inductive Refusal where
  /-- For `exec`'s arms of instructions not modelled yet; raised by nobody here, every arm has its meaning. Safe. -/
  | notModelled (mnemonic : String)
  deriving DecidableEq, Repr

/-- R28: the display, `disp[y][x]`: 32 rows of 64 cells. -/
abbrev Display := Vector (Vector Bool 64) 32

/-- R50: the memory, the bytes that differ from the reset contents, by strictly rising address. -/
abbrev Memory := List Host.Cell

/-- Everything the spec gives the machine (R20 to R35), the parameter FONT (R6), and five fields of the model's own (log entries 1, 2, 24,
29, 33). -/
structure State where
  /-- R20: V0 to VF; V[15] is VF, the flag register (R22). -/
  v : Vector Byte 16
  /-- R23: the index register I. -/
  i : Addr
  /-- R24: the program counter. -/
  pc : Addr
  /-- R25: the number of valid stack entries, 0..16. -/
  sp : Fin 17
  /-- R25: the call stack; entry 0 is the oldest. -/
  stack : Vector Addr 16
  /-- R26: the delay timer. -/
  dt : Byte
  /-- R27: the sound timer. -/
  st : Byte
  /-- R28: the display buffer. -/
  disp : Display
  /-- R29: the key flags, true meaning down. -/
  key : Vector Bool 16
  /-- R30: the pending keypad wait. -/
  wait : Option Reg
  /-- R31: RUNNING or HALTED. -/
  run : RunState
  /-- R32: the cause code of the latched fault (R170), 0 when there is none. -/
  fcause : BitVec 3
  /-- R32: the address of the instruction that faulted. -/
  fpc : Addr
  /-- R32: its word, 0 for a fetch fault. -/
  fword : Word
  /-- R32: the first out-of-range address, 0 for the other causes. -/
  faddr : Addr
  /-- R33, R50: the memory. -/
  mem : Memory
  /-- R6, R52: the parameter FONT of this machine, which RESET and LOAD put at 0x000; no event changes it (log entry 9). -/
  font : Font
  /-- The model's own: the host events not yet applied, oldest first (R7, R207). -/
  events : List HostEvent
  /-- The model's own: the byte the STEP event being served carries (R37), none when the host named none. -/
  rnd : Option Byte
  /-- The model's own: how many Cxkk have executed, the argument of the free value `Config.freeRnd`. -/
  rndDraws : Nat
  /-- The model's own: the port `ld_error` (R39, R175), the answer to the latest LOAD. -/
  ldError : Bool
  /-- The model's own: the bytes accepted so far of an image being streamed at the load ports (R39), oldest first. -/
  ldStream : List Byte
  deriving DecidableEq, Repr

/-- R40, R200: the state after RESET of a machine with a given FONT. Memory lists nothing: an unlisted address reads as its reset
contents. -/
def State.resetWith (font : Font) : State where
  v := Vector.replicate 16 0
  i := 0
  pc := 0x200
  sp := 0
  stack := Vector.replicate 16 0
  dt := 0
  st := 0
  disp := Vector.replicate 32 (Vector.replicate 64 false)
  key := Vector.replicate 16 false
  wait := none
  run := .running
  fcause := 0
  fpc := 0
  fword := 0
  faddr := 0
  mem := []
  font := font
  events := []
  rnd := none
  rndDraws := 0
  ldError := false
  ldStream := []

/-- R40, R53: the state after RESET with the default FONT. -/
def State.reset : State := State.resetWith Config.font

end Sys2Proof.Machine
end

