-- ==== Sys2Proof/Machine/Ops.lean ====
section
/-! DEFINITION. The named operations over registers, memory, display and stack, and taking a fault
(spec/00_scope.md rule R9, spec/20_memory.md rules R50 to R59, spec/60_exceptions.md rule R176). -/

namespace Sys2Proof.Machine

/-- What an event or an instruction answers. -/
abbrev Result := Host.Outcome State Fault Refusal

/-! ### Registers -/

/-- R9: `V[r]`. -/
def State.reg (s : State) (r : Reg) : Byte := s.v[r.val]

/-- R9: `V[r] <- b`. -/
def State.setReg (s : State) (r : Reg) (b : Byte) : State := { s with v := s.v.set r.val b }

/-- R22: VF is V[15]. -/
abbrev vf : Reg := 15

/-- R93: `npc = PC + 2`. -/
def State.npc (s : State) : Addr := s.pc + 2

/-- R94: the end of every rule that does not mention PC, `PC <- npc`. -/
def State.advance (s : State) : State := { s with pc := s.npc }

/-- R103 to R106, R163, R164: `if c then PC <- npc + 2 else PC <- npc`. -/
def State.skipIf (s : State) (c : Bool) : State := { s with pc := if c then s.npc + 2 else s.npc }

/-- Write V[k], V[k+1], … from a list of bytes, in order (R145). -/
def writeRegs (k : Nat) : List Byte → Vector Byte 16 → Vector Byte 16
  | [], v => v
  | b :: bs, v => writeRegs (k + 1) bs (v.setIfInBounds k b)

/-! ### Memory: one byte -/

/-- What an address reads as when the list does not name it: its reset contents (R40, R51), FONT below 0x050 and 0 above. -/
def unlisted (font : Font) (a : Nat) : Byte := if h : a < 80 then font[a] else 0

/-- The byte at an address. -/
def Memory.read (font : Font) : Memory → Nat → Byte
  | [], a => unlisted font a
  | (k, b) :: rest, a => if k = a then b else Memory.read font rest a

/-- A cell in front of a list, left out when the address reads so anyway. -/
def Memory.consCell (font : Font) (a : Nat) (b : Byte) (m : Memory) : Memory :=
  if b = unlisted font a then m else (a, b) :: m

/-- Store a byte, keeping the list canonical. -/
def Memory.write (font : Font) : Memory → Nat → Byte → Memory
  | [], a, b => Memory.consCell font a b []
  | (k, c) :: rest, a, b =>
    if a < k then Memory.consCell font a b ((k, c) :: rest)
    else if a = k then Memory.consCell font a b rest
    else (k, c) :: Memory.write font rest a b

/-- The addresses of a list lie above `lo`, rise strictly, and each cell differs from what its address reads as unlisted. -/
def Memory.canonicalFrom (font : Font) (lo : Nat) : Memory → Bool
  | [] => true
  | (k, b) :: rest => lo ≤ k && k < Config.memSize && b != unlisted font k && Memory.canonicalFrom font (k + 1) rest

/-- The canonical form: strictly rising addresses of the 4096-byte space, no cell equal to what an unlisted address reads as. -/
def Memory.wf (font : Font) (m : Memory) : Bool := Memory.canonicalFrom font 0 m

/-! ### Memory: a run of bytes -/

/-- The bytes at `addr, addr+1, …`, `n` of them, lowest address first. -/
def Memory.readRun (font : Font) (m : Memory) (addr : Nat) : Nat → List Byte
  | 0 => []
  | n + 1 => m.read font addr :: m.readRun font (addr + 1) n

/-- Store the bytes at `addr, addr+1, …`. -/
def Memory.writeRun (font : Font) (m : Memory) (addr : Nat) : List Byte → Memory
  | [] => m
  | b :: bs => (m.write font addr b).writeRun font (addr + 1) bs

/-- R56, R57: an access of `n` bytes at `addr` lies in the 4096-byte space; the sum is not wrapped, and `n = 0` always does. -/
def accessFits (addr n : Nat) : Bool := n == 0 || addr + n - 1 ≤ 0xFFF

/-- R56, R57: the first offending address of an access that does not fit. -/
def firstOffending (addr : Nat) : Addr := BitVec.ofNat 16 (max addr 0x1000)

/-- R56: MemRead. The error is the first offending address. -/
def memRead (font : Font) (m : Memory) (addr n : Nat) : Except Addr (List Byte) :=
  if accessFits addr n then .ok (m.readRun font addr n) else .error (firstOffending addr)

/-- R57: MemWrite. The whole range is checked before the first byte is written. -/
def memWrite (font : Font) (m : Memory) (addr : Nat) (bytes : List Byte) : Except Addr Memory :=
  if accessFits addr bytes.length then .ok (m.writeRun font addr bytes) else .error (firstOffending addr)

/-- The byte of the state's memory at an address. -/
def State.byteAt (s : State) (a : Nat) : Byte := s.mem.read s.font a

/-! ### Taking a fault, and the absence of a return -/

/-- R170: the cause codes. -/
def Fault.code : Fault → BitVec 3
  | .decodeError => 1
  | .stackOverflow => 2
  | .stackUnderflow => 3
  | .addressOutOfRange => 4
  | .loadError => 5

/-- R176: fault entry. The record is latched, the core halts, PC and everything else stay as before the step. There is no return
from a fault (R177): what leaves HALTED is the host's RESET or LOAD (`resetEvent`, `loadEvent`). -/
def State.haltWith (s : State) (cause : Fault) (word : Word) (addr : Addr) : State :=
  { s with run := .halted, fcause := cause.code, fpc := s.pc, fword := word, faddr := addr }

/-- R9: `raise <Fault>(info)`. A next state: the machine takes the fault. -/
def raise (s : State) (cause : Fault) (word : Word) (addr : Addr) : Result := .next (s.haltWith cause word addr)

/-! ### Memory instructions -/

/-- An instruction that reads `n` bytes at I (Dxyn, Fx65): the continuation gets them, or AddressOutOfRange is taken (R174). -/
def loadThen (s : State) (i : Instr) (n : Nat) (k : List Byte → State) : Result :=
  match memRead s.font s.mem s.i.toNat n with
  | .ok bytes => .next (k bytes)
  | .error a => raise s .addressOutOfRange (encode i) a

/-- An instruction that stores bytes at I (Fx33, Fx55) and then advances, or takes AddressOutOfRange (R174). -/
def storeThenAdvance (s : State) (i : Instr) (bytes : List Byte) : Result :=
  match memWrite s.font s.mem s.i.toNat bytes with
  | .ok m => .next { s with mem := m }.advance
  | .error a => raise s .addressOutOfRange (encode i) a

/-! ### Fetch -/

/-- R91: the word at PC, high byte first, or the first offending address. -/
def fetch (s : State) : Except Addr Word :=
  match memRead s.font s.mem s.pc.toNat 2 with
  | .ok (hi :: lo :: _) => .ok (wordOfBytes hi lo)
  | .ok _ => .error (firstOffending s.pc.toNat)
  | .error a => .error a

/-! ### The call stack (R25) -/

/-- Push a return address; none when all 16 entries are valid. -/
def State.push (s : State) (a : Addr) : Option State :=
  if h : s.sp.val < 16 then some { s with stack := s.stack.set s.sp.val a, sp := ⟨s.sp.val + 1, by omega⟩ } else none

/-- The newest entry and the state without it; none when the stack is empty. The entry keeps its bits in the array (R100). -/
def State.pop (s : State) : Option (Addr × State) :=
  if h : 0 < s.sp.val then
    some (s.stack[s.sp.val - 1]'(by omega), { s with sp := ⟨s.sp.val - 1, by omega⟩ })
  else none

/-! ### The display (R28) -/

/-- `disp[y][x]`. -/
def Display.cell (d : Display) (x : Fin 64) (y : Fin 32) : Bool := d[y.val][x.val]

/-- `disp[y][x] <- disp[y][x] XOR 1`. -/
def Display.toggle (d : Display) (x : Fin 64) (y : Fin 32) : Display :=
  d.set y.val (d[y.val].set x.val (!d[y.val][x.val]))

/-- Every cell 0. -/
def Display.clear : Display := Vector.replicate 32 (Vector.replicate 64 false)

end Sys2Proof.Machine
end

