-- ==== Sys2Proof/Machine/Operands.lean ====
section
/-! DEFINITION. The operand forms (spec/30_encoding.md rule R73, spec/43_index_memory.md rule R146). -/

namespace Sys2Proof.Machine

/-- R73: `nnn` as a 16-bit value, zero-extended. -/
def zextNnn (nnn : BitVec 12) : Addr := nnn.setWidth 16

/-- R9: a byte as a 16-bit value, zero-extended. -/
def zextByte (b : Byte) : Addr := b.setWidth 16

/-- R107: `zext_16(nnn) + zext_16(V[0])`; not reduced modulo 4096. -/
def offsetTarget (s : State) (nnn : BitVec 12) : Addr := zextNnn nnn + zextByte (s.reg 0)

/-- R142: `FONT_BASE + 5 * zext_16(V[x])` with `FONT_BASE = 0x000`; the whole byte is used. -/
def glyphAddr (b : Byte) : Addr := 0x000 + 5 * zextByte b

/-- R143: hundreds, tens, ones. -/
def bcdDigits (b : Byte) : List Byte :=
  [BitVec.ofNat 8 (b.toNat / 100), BitVec.ofNat 8 (b.toNat / 10 % 10), BitVec.ofNat 8 (b.toNat % 10)]

/-- R144: `[V[0], V[1], …, V[x]]`, x + 1 bytes. -/
def regBlock (s : State) (x : Reg) : List Byte := s.v.toList.take (x.val + 1)

/-- R163, R164: the key that the low 4 bits of V[x] select. -/
def keySelect (b : Byte) : Fin 16 := (b.extractLsb' 0 4).toFin

/-- R163, R164: `key[k]`. -/
def State.keyDown (s : State) (k : Fin 16) : Bool := s.key[k.val]

/-- R184: a key's code as a byte. -/
def codeByte (code : Fin 16) : Byte := BitVec.ofNat 8 code.val

/-- R131: the random byte a Cxkk reads now: the one the STEP carries, else a free value. -/
def randomByte (s : State) : Byte := s.rnd.getD (Config.freeRnd s.rndDraws)

/-- R131: the byte is used up; the next Cxkk reads a fresh one. -/
def State.drawRandom (s : State) : State := { s with rnd := none, rndDraws := s.rndDraws + 1 }

end Sys2Proof.Machine
end

