-- ==== Sys2Proof/Machine/Flags.lean ====
section
/-! DEFINITION. The flag computations (spec/10_state.md rule R22, spec/42_alu.md rules R126 to R133) and the sprite unit with its
collision flag (spec/44_display.md rule R151). -/

namespace Sys2Proof.Machine

/-- A flag as the byte VF gets: 1 or 0. -/
def flagByte (f : Bool) : Byte := if f then 1 else 0

/-- R126: the untruncated sum exceeds 255. -/
def carryOut (a b : Byte) : Bool := a.toNat + b.toNat > 255

/-- R127, R129: `a >= b`, no borrow in a - b. -/
def noBorrow (a b : Byte) : Bool := a.toNat ≥ b.toNat

/-- R128: the bit shifted out to the right. -/
def bitOutRight (a : Byte) : Bool := a.getLsbD 0

/-- R130: the bit shifted out to the left. -/
def bitOutLeft (a : Byte) : Bool := a.getLsbD 7

/-- R133: first `V[15] <- f`, then `V[x] <- r`, then `PC <- npc`. With `x = 15` the result is what stays. -/
def State.writeFlagged (s : State) (x : Reg) (f : Bool) (r : Byte) : State :=
  ((s.setReg vf (flagByte f)).setReg x r).advance

/-- R151: one sprite bit of 1 at column `ox + c`, row `oy + r`, both reduced: the collision so far and the display. -/
def drawPixel (px py : Nat) (a : Display × Bool) : Display × Bool :=
  (a.1.toggle ⟨px % 64, Nat.mod_lt _ (by decide)⟩ ⟨py % 32, Nat.mod_lt _ (by decide)⟩,
    a.2 || a.1.cell ⟨px % 64, Nat.mod_lt _ (by decide)⟩ ⟨py % 32, Nat.mod_lt _ (by decide)⟩)

/-- R151: the columns 0 to 7 of one row, `rows[r][7 - c]` being column c. -/
def drawRow (ox py : Nat) (row : Byte) (a : Display × Bool) : Display × Bool :=
  (List.range 8).foldl (fun a c => if row.getLsbD (7 - c) then drawPixel (ox + c) py a else a) a

/-- R151: the rows, the first at `oy`. -/
def drawRows (ox oy : Nat) : List Byte → Display × Bool → Display × Bool
  | [], a => a
  | row :: rows, a => drawRows ox (oy + 1) rows (drawRow ox oy row a)

end Sys2Proof.Machine
end

