-- ==== Sys2Proof/Machine/Alu.lean ====
section
/-! DEFINITION. Register load, arithmetic, logic, shift and random (spec/42_alu.md rules R120 to R134). None can fault. -/

namespace Sys2Proof.Machine

/-- R120 LD Vx, kk. -/
def execLdImm (x : Reg) (kk : Byte) (s : State) : Result := .next (s.setReg x kk).advance

/-- R121 ADD Vx, kk: modulo 256, no flag. -/
def execAddImm (x : Reg) (kk : Byte) (s : State) : Result := .next (s.setReg x (s.reg x + kk)).advance

/-- R122 LD Vx, Vy. PRESUMED: general knowledge (G2, D26), log entry 21. -/
def execLdReg (x y : Reg) (s : State) : Result := .next (s.setReg x (s.reg y)).advance

/-- R123 OR Vx, Vy; VF is not touched (R134). -/
def execOrReg (x y : Reg) (s : State) : Result := .next (s.setReg x (s.reg x ||| s.reg y)).advance

/-- R124 AND Vx, Vy; VF is not touched (R134). -/
def execAndReg (x y : Reg) (s : State) : Result := .next (s.setReg x (s.reg x &&& s.reg y)).advance

/-- R125 XOR Vx, Vy; VF is not touched (R134). -/
def execXorReg (x y : Reg) (s : State) : Result := .next (s.setReg x (s.reg x ^^^ s.reg y)).advance

/-- R126 ADD Vx, Vy: VF is the carry out. -/
def execAddReg (x y : Reg) (s : State) : Result :=
  .next (s.writeFlagged x (carryOut (s.reg x) (s.reg y)) (s.reg x + s.reg y))

/-- R127 SUB Vx, Vy: VF is 1 iff Vx ≥ Vy. -/
def execSubReg (x y : Reg) (s : State) : Result :=
  .next (s.writeFlagged x (noBorrow (s.reg x) (s.reg y)) (s.reg x - s.reg y))

/-- R128 SHR Vx: in place; the field `y` is ignored. -/
def execShr (x _y : Reg) (s : State) : Result :=
  .next (s.writeFlagged x (bitOutRight (s.reg x)) (s.reg x >>> 1))

/-- R129 SUBN Vx, Vy: VF is 1 iff Vy ≥ Vx. -/
def execSubnReg (x y : Reg) (s : State) : Result :=
  .next (s.writeFlagged x (noBorrow (s.reg y) (s.reg x)) (s.reg y - s.reg x))

/-- R130 SHL Vx: in place; the field `y` is ignored. -/
def execShl (x _y : Reg) (s : State) : Result :=
  .next (s.writeFlagged x (bitOutLeft (s.reg x)) (s.reg x <<< 1))

/-- R131 RND Vx, kk: the random byte is a free value (log entry 2). -/
def execRnd (x : Reg) (kk : Byte) (s : State) : Result :=
  .next (s.drawRandom.setReg x (randomByte s &&& kk)).advance

end Sys2Proof.Machine
end

