-- ==== Sys2Proof/Machine/Flow.lean ====
section
/-! DEFINITION. Control transfer (spec/41_flow.md rules R100 to R107). None of these writes a general register. -/

namespace Sys2Proof.Machine

/-- R100 RET. -/
def execRet (s : State) : Result :=
  match s.pop with
  | some (a, t) => .next { t with pc := a }
  | none => raise s .stackUnderflow (encode .ret) 0

/-- R101 JP nnn. -/
def execJp (nnn : BitVec 12) (s : State) : Result := .next { s with pc := zextNnn nnn }

/-- R102 CALL nnn. -/
def execCall (nnn : BitVec 12) (s : State) : Result :=
  match s.push s.npc with
  | some t => .next { t with pc := zextNnn nnn }
  | none => raise s .stackOverflow (encode (.call nnn)) 0

/-- R103 SE Vx, kk. -/
def execSeImm (x : Reg) (kk : Byte) (s : State) : Result := .next (s.skipIf (s.reg x == kk))

/-- R104 SNE Vx, kk. -/
def execSneImm (x : Reg) (kk : Byte) (s : State) : Result := .next (s.skipIf (s.reg x != kk))

/-- R105 SE Vx, Vy. -/
def execSeReg (x y : Reg) (s : State) : Result := .next (s.skipIf (s.reg x == s.reg y))

/-- R106 SNE Vx, Vy. -/
def execSneReg (x y : Reg) (s : State) : Result := .next (s.skipIf (s.reg x != s.reg y))

/-- R107 JP V0, nnn. -/
def execJpV0 (nnn : BitVec 12) (s : State) : Result := .next { s with pc := offsetTarget s nnn }

end Sys2Proof.Machine
end

