-- ==== Sys2Proof/Machine/Index.lean ====
section
/-! DEFINITION. The index register and memory instructions (spec/43_index_memory.md rules R140 to R147). -/

namespace Sys2Proof.Machine

/-- R140 LD I, nnn. -/
def execLdI (nnn : BitVec 12) (s : State) : Result := .next { s with i := zextNnn nnn }.advance

/-- R141 ADD I, Vx: modulo 65536, no flag, no fault (D9, log entry 12). -/
def execAddI (x : Reg) (s : State) : Result := .next { s with i := s.i + zextByte (s.reg x) }.advance

/-- R142 LD F, Vx: no memory access; the whole byte is used (D12, log entry 15). -/
def execLdF (x : Reg) (s : State) : Result := .next { s with i := glyphAddr (s.reg x) }.advance

/-- R143 LD B, Vx. -/
def execLdB (x : Reg) (s : State) : Result := storeThenAdvance s (.ldB x) (bcdDigits (s.reg x))

/-- R144 LD [I], Vx: I is unchanged (D10, log entry 13). -/
def execStBlock (x : Reg) (s : State) : Result := storeThenAdvance s (.stBlock x) (regBlock s x)

/-- R145 LD Vx, [I]: I is unchanged (D10, log entry 13). -/
def execLdBlock (x : Reg) (s : State) : Result :=
  loadThen s (.ldBlock x) (x.val + 1) fun bytes => { s with v := writeRegs 0 bytes s.v }.advance

end Sys2Proof.Machine
end

