-- ==== Sys2Proof/Machine/Screen.lean ====
section
/-! DEFINITION. The display instructions (spec/44_display.md rules R150, R151). -/

namespace Sys2Proof.Machine

/-- R150 CLS: VF is not written. -/
def execCls (s : State) : Result := .next { s with disp := Display.clear }.advance

/-- R151 DRW Vx, Vy, n: the origin is read before VF is written, the range is checked before anything is. `n = 0` draws nothing
and writes VF = 0 (D13, log entry 16). -/
def execDrw (x y : Reg) (n : Fin 16) (s : State) : Result :=
  loadThen s (.drw x y n) n.val fun rows =>
    let drawn := drawRows (s.reg x).toNat (s.reg y).toNat rows (s.disp, false)
    ({ s with disp := drawn.1 }.setReg vf (flagByte drawn.2)).advance

end Sys2Proof.Machine
end

