-- ==== Sys2Proof/Machine/TimerKeypad.lean ====
section
/-! DEFINITION. The timer and keypad instructions (spec/45_timer_keypad.md rules R160 to R166). None can fault. -/

namespace Sys2Proof.Machine

/-- R160 LD Vx, DT. -/
def execLdVxDt (x : Reg) (s : State) : Result := .next (s.setReg x s.dt).advance

/-- R161 LD DT, Vx. -/
def execLdDtVx (x : Reg) (s : State) : Result := .next { s with dt := s.reg x }.advance

/-- R162 LD ST, Vx. -/
def execLdStVx (x : Reg) (s : State) : Result := .next { s with st := s.reg x }.advance

/-- R163 SKP Vx: the low 4 bits of V[x] name the key (D11, log entry 14). -/
def execSkp (x : Reg) (s : State) : Result := .next (s.skipIf (s.keyDown (keySelect (s.reg x))))

/-- R164 SKNP Vx. -/
def execSknp (x : Reg) (s : State) : Result := .next (s.skipIf (!s.keyDown (keySelect (s.reg x))))

/-- R165 LD Vx, K: the wait is registered, PC stays at this instruction, no flag is read. It completes inside the KEY event that is
the first key-down edge (R184, `keyEvent`). -/
def execLdVxK (x : Reg) (s : State) : Result := .next { s with wait := some x }

end Sys2Proof.Machine
end

