-- ==== Sys2Proof/WellFormed.lean ====
section
/-! DEFINITION. What is well formed before anything runs: an instruction WORD (it matches a row of the opcode table,
spec/30_encoding.md rules R74, R75) and a program IMAGE (it fits, spec/70_reset_and_hazards.md rule R201). An `Instr` has
no ill-formed term: its operand types hold exactly the values R73 calls legal, which is all of them. -/

namespace Sys2Proof

/-- One row of the opcode table of R74: the pattern as the spec prints it, the bits that are fixed, their value. -/
structure OpRow where
  pattern : String
  fixed : Word
  mask : Word
  deriving DecidableEq, Repr

/-- R74: "A word w is the instruction of a row iff (w AND mask) = match". -/
def OpRow.covers (r : OpRow) (w : Word) : Bool := w &&& r.mask == r.fixed

/-- The rows of families 0 to 7 of R74. -/
def opcodeTableLow : List OpRow :=
  [⟨"00E0", 0x00E0, 0xFFFF⟩, ⟨"00EE", 0x00EE, 0xFFFF⟩, ⟨"1nnn", 0x1000, 0xF000⟩, ⟨"2nnn", 0x2000, 0xF000⟩,
   ⟨"3xkk", 0x3000, 0xF000⟩, ⟨"4xkk", 0x4000, 0xF000⟩, ⟨"5xy0", 0x5000, 0xF00F⟩, ⟨"6xkk", 0x6000, 0xF000⟩,
   ⟨"7xkk", 0x7000, 0xF000⟩]

/-- The rows of families 8 to D of R74. -/
def opcodeTableMid : List OpRow :=
  [⟨"8xy0", 0x8000, 0xF00F⟩, ⟨"8xy1", 0x8001, 0xF00F⟩, ⟨"8xy2", 0x8002, 0xF00F⟩, ⟨"8xy3", 0x8003, 0xF00F⟩,
   ⟨"8xy4", 0x8004, 0xF00F⟩, ⟨"8xy5", 0x8005, 0xF00F⟩, ⟨"8xy6", 0x8006, 0xF00F⟩, ⟨"8xy7", 0x8007, 0xF00F⟩,
   ⟨"8xyE", 0x800E, 0xF00F⟩, ⟨"9xy0", 0x9000, 0xF00F⟩, ⟨"Annn", 0xA000, 0xF000⟩, ⟨"Bnnn", 0xB000, 0xF000⟩,
   ⟨"Cxkk", 0xC000, 0xF000⟩, ⟨"Dxyn", 0xD000, 0xF000⟩]

/-- The rows of families E and F of R74. -/
def opcodeTableHigh : List OpRow :=
  [⟨"Ex9E", 0xE09E, 0xF0FF⟩, ⟨"ExA1", 0xE0A1, 0xF0FF⟩, ⟨"Fx07", 0xF007, 0xF0FF⟩, ⟨"Fx0A", 0xF00A, 0xF0FF⟩,
   ⟨"Fx15", 0xF015, 0xF0FF⟩, ⟨"Fx18", 0xF018, 0xF0FF⟩, ⟨"Fx1E", 0xF01E, 0xF0FF⟩, ⟨"Fx29", 0xF029, 0xF0FF⟩,
   ⟨"Fx33", 0xF033, 0xF0FF⟩, ⟨"Fx55", 0xF055, 0xF0FF⟩, ⟨"Fx65", 0xF065, 0xF0FF⟩]

/-- The 34 rows of R74, written from its match and mask columns, apart from the decoder. -/
def opcodeTable : List OpRow := opcodeTableLow ++ opcodeTableMid ++ opcodeTableHigh

/-- R75: the word matches a row of the table. -/
def legalWord (w : Word) : Bool := opcodeTable.any fun r => r.covers w

/-- R201: an image of at most 3584 bytes is accepted. -/
def imageFits (image : List Byte) : Bool := image.length ≤ Config.maxImage

end Sys2Proof
end

