-- ==== Sys2Proof/Machine/Cycle.lean ====
section
/-! DEFINITION. The five host events: STEP, the fetch-decode-execute cycle (spec/40_cycle.md), TICK and KEY
(spec/60_exceptions.md rules R181 to R184, R189), RESET and LOAD (spec/70_reset_and_hazards.md rules R200, R201). -/

namespace Sys2Proof.Machine

/-- R90 to R94, R178: the STEP event. Gate, then fetch, then decode, then the instruction. -/
def stepEvent (s : State) : Result :=
  match s.run, s.wait with
  | .halted, _ => .next s
  | .running, some _ => .next s
  | .running, none =>
    match fetch s with
    | .error a => raise s .addressOutOfRange 0x0000 a
    | .ok w =>
      match decode w with
      | .error _ => raise s .decodeError w 0
      | .ok i => exec i s

/-- One timer at a TICK: minus 1 while it is not 0. -/
def countDown (t : Byte) : Byte := if t = 0 then 0 else t - 1

/-- R181: the TICK event, in every state of the core. -/
def tickEvent (s : State) : State := { s with dt := countDown s.dt, st := countDown s.st }

/-- R183: the event is a transition from up to down. -/
def isEdge (s : State) (code : Fin 16) (down : Bool) : Bool := down && !s.keyDown code

/-- R183, R184: the KEY event. A key-down edge ends a pending wait: V[x] gets the code and PC passes the Fx0A. -/
def keyEvent (code : Fin 16) (down : Bool) (s : State) : State :=
  let t : State := { s with key := s.key.set code.val down }
  match s.run, s.wait, isEdge s code down with
  | .running, some x, true => ({ t with wait := none }.setReg x (codeByte code)).advance
  | _, _, _ => t

/-- R200: the RESET event, in every state, with the machine's own FONT. The host's queue, the load ports' stream and the count
of random draws are the model's and stay (log entry 25). -/
def resetEvent (s : State) : State :=
  { State.resetWith s.font with events := s.events, rndDraws := s.rndDraws, ldStream := s.ldStream }

/-- R201: the LOAD event. Too long an image changes nothing of the core and is reported (R175, log entry 24). -/
def loadEvent (image : List Byte) (s : State) : State :=
  if imageFits image then { resetEvent s with mem := (resetEvent s).mem.writeRun s.font Config.progBase image }
  else { s with ldError := true }

/-- The state a result holds, changed by `f`; a stop stays a stop. -/
def onNext (f : State → State) : Result → Result
  | .next s => .next (f s)
  | .fault r => .fault r
  | .refused r => .refused r

/-- R37: STEP carrying the byte `rnd`, which is gone when the step is over whether or not it was read. -/
def stepWith (rnd : Byte) (s : State) : Result :=
  onNext (fun t => { t with rnd := none }) (stepEvent { s with rnd := some rnd })

/-- R7: one host event. -/
def applyEvent (e : HostEvent) (s : State) : Result :=
  match e with
  | .reset => .next (resetEvent s)
  | .load image => .next (loadEvent image s)
  | .step rnd => stepWith rnd s
  | .tick => .next (tickEvent s)
  | .key code down => .next (keyEvent code down s)

/-- Events in their order, each complete before the next begins (R7, R60); a stop ends the run. -/
def runEvents : List HostEvent → State → Result
  | [], s => .next s
  | e :: es, s =>
    match applyEvent e s with
    | .next t => runEvents es t
    | .fault r => .fault r
    | .refused r => .refused r

/-- R207: one turn of the host's canonical loop: the KEY events that arrived, one STEP a byte of `rnds` (so IPT is its length), then
TICK. The core reads none of this. -/
def canonicalTurn (keys : List (Fin 16 × Bool)) (rnds : List Byte) : List HostEvent :=
  keys.map (fun k => .key k.1 k.2) ++ rnds.map .step ++ [.tick]

/-- PC, or the load address where PC cannot be fetched from: where `State.withFetchWord` stores. -/
def fetchablePc (s : State) : Addr := if s.pc.toNat ≤ 0xFFE then s.pc else 0x200

/-- The word stored where the next step fetches, and the gate of R90 open: no queued event before it, RUNNING, no wait. -/
def placeWord (s : State) (w : Word) : State :=
  { s with
    pc := fetchablePc s
    mem := s.mem.writeRun s.font (fetchablePc s).toNat [hiByte w, loByte w]
    events := []
    run := .running
    wait := none }

end Sys2Proof.Machine
end

