-- ==== Sys2Proof/Machine/Step.lean ====
section
/-! DEFINITION. One step of the machine: the host's oldest queued event, or, with none queued, its STEP with an unnamed random byte
(log entry 1). -/

namespace Sys2Proof.Machine

/-- One step. It answers next on every state: the spec gives every event an effect in every state. -/
def step (s : State) : Host.Outcome State Fault Refusal :=
  match s.events with
  | [] => stepEvent s
  | e :: rest => applyEvent e { s with events := rest }

/-- `s` with an instruction's word where the next step fetches it (log entry 26). -/
def State.withFetchWord (s : State) (nbits w : Nat) : State := placeWord s (tableWord nbits w)

end Sys2Proof.Machine
end

