-- ==== Sys2Proof/Machine/Views.lean ====
section
/-! DEFINITION. What the host reads between events (spec/10_state.md rule R38, spec/60_exceptions.md rule R182).
Reading changes nothing: these are functions of State. -/

namespace Sys2Proof.Machine

/-- R38: the status view. -/
inductive Status where
  | running
  | waiting
  | halted
  deriving DecidableEq, Repr

/-- R38: RUNNING, WAITING or HALTED. -/
def State.status (s : State) : Status :=
  match s.run, s.wait with
  | .halted, _ => .halted
  | .running, some _ => .waiting
  | .running, none => .running

/-- R182: `tone = 1` iff `ST > 0`. -/
def State.tone (s : State) : Bool := s.st.toNat > 0

/-- R38: the delay timer. -/
def State.dtView (s : State) : Byte := s.dt

/-- R38: `is_down(code)`. -/
def State.isDown (s : State) (code : Fin 16) : Bool := s.keyDown code

/-- R28, R38: the host's linear view, cell `y*64 + x` (D20, log entry 30). -/
def State.displayLinear (s : State) (k : Fin 2048) : Bool :=
  s.disp.cell ⟨k.val % 64, Nat.mod_lt _ (by decide)⟩ ⟨k.val / 64, by omega⟩

/-- R32, R38: the fault record. -/
structure FaultRecord where
  fcause : BitVec 3
  fpc : Addr
  fword : Word
  faddr : Addr
  deriving DecidableEq, Repr

/-- R38: the fault view. -/
def State.faultRecord (s : State) : FaultRecord := ⟨s.fcause, s.fpc, s.fword, s.faddr⟩

end Sys2Proof.Machine
end

