-- ==== Sys2Proof/Machine/Ports.lean ====
section
/-! DEFINITION. The port-level binding of spec/10_state.md rule R39, which the spec calls wholly its own choice: what the ports carry in
one clock cycle, the image streamed byte by byte, and the order of the events of one cycle (log entry 33). -/

namespace Sys2Proof.Machine

/-- R39: the input ports in one cycle of `clk`, port by port. Each strobe stands for at most one event (log entry 33). -/
structure PortIn where
  reset : Bool
  /-- `ld_valid`: a byte of the image is offered in this cycle. -/
  ldValid : Bool
  /-- `ld_last`: that byte is the image's last. Without `ld_valid` it means nothing. -/
  ldLast : Bool
  ldData : Byte
  step : Bool
  rnd : Byte
  tick : Bool
  keyValid : Bool
  keyCode : Fin 16
  keyDown : Bool
  deriving DecidableEq, Repr

/-- R39: the cycle in which no port carries anything. -/
def PortIn.idle : PortIn where
  reset := false
  ldValid := false
  ldLast := false
  ldData := 0
  step := false
  rnd := 0
  tick := false
  keyValid := false
  keyCode := 0
  keyDown := false

/-- R39: the image byte a cycle carries. -/
def PortIn.imageByte (p : PortIn) : Option Byte := if p.ldValid then some p.ldData else none

/-- R39: the last byte of an image is accepted in this cycle. -/
def PortIn.completesLoad (p : PortIn) : Bool := p.ldValid && p.ldLast

/-- R39: the strobes of a cycle with neither a reset nor the completion of a load: KEY, then STEP, then TICK. -/
def PortIn.strobes (p : PortIn) : List HostEvent :=
  (if p.keyValid then [.key p.keyCode p.keyDown] else []) ++ (if p.step then [.step p.rnd] else []) ++
    (if p.tick then [.tick] else [])

/-- R39: the bytes of an image that is being streamed, with the one this cycle carries. -/
def State.streamed (s : State) (p : PortIn) : List Byte := s.ldStream ++ p.imageByte.toList

/-- R39: the events of one cycle in their order. A reset or the completion of a load stands alone. With both in one cycle the reset is
applied, for which R39 gives no order (DESIGN CHOICE, log entry 33). -/
def State.cycleEvents (s : State) (p : PortIn) : List HostEvent :=
  if p.reset then [.reset] else if p.completesLoad then [.load (s.streamed p)] else p.strobes

/-- R39: what of an image has been accepted after a cycle. Its completion ends the stream; a reset drops it (DESIGN CHOICE, log
entry 33). -/
def State.nextStream (s : State) (p : PortIn) : List Byte :=
  if p.reset || p.completesLoad then [] else s.streamed p

/-- R39: one cycle of `clk`: its events are queued behind those not yet applied, so each is applied when the one before it is
complete. -/
def State.clockCycle (s : State) (p : PortIn) : State :=
  { s with events := s.events ++ s.cycleEvents p, ldStream := s.nextStream p }

/-- R39: cycles of `clk`, the first first. -/
def State.clockCycles (s : State) (ps : List PortIn) : State := ps.foldl State.clockCycle s

/-- R39: the output ports. The 2-bit code of `status` is not given, so the view stands for it. -/
structure PortOut where
  /-- `disp[2047:0]`, cell `y*64 + x` at k (D20, log entry 30). -/
  disp : Vector Bool 2048
  tone : Bool
  dt : Byte
  /-- `keys[15:0]`, key k at k (DEDUCED, log entry 33). -/
  keys : Vector Bool 16
  status : Status
  fcause : BitVec 3
  fpc : Addr
  fword : Word
  faddr : Addr
  ldError : Bool
  deriving DecidableEq, Repr

/-- R38, R39: what the output ports show between two events. -/
def State.portOut (s : State) : PortOut where
  disp := Vector.ofFn s.displayLinear
  tone := s.tone
  dt := s.dtView
  keys := s.key
  status := s.status
  fcause := s.fcause
  fpc := s.fpc
  fword := s.fword
  faddr := s.faddr
  ldError := s.ldError

end Sys2Proof.Machine
end

