-- ==== Sys2Proof/Safety.lean ====
section
/-! DEFINITION. The terms claims are stated in: frames, the tables of who writes what, which accesses fault, the state invariant
(spec/10_state.md rules R21, R24, R42, spec/20_memory.md rule R66), the recommended end of a run (spec/40_cycle.md rule R97). -/

namespace Sys2Proof.Machine

/-- Every byte of memory reads as before. -/
def SameBytes (s t : State) : Prop := ∀ a : Nat, t.byteAt a = s.byteAt a

/-- Every byte outside the `n` bytes at `addr` reads as before. -/
def SameBytesOutside (addr n : Nat) (s t : State) : Prop :=
  ∀ a : Nat, a < addr ∨ addr + n ≤ a → t.byteAt a = s.byteAt a

/-- Every general register but those named reads as before. -/
def SameRegsBut (named : Reg → Bool) (s t : State) : Prop := ∀ r : Reg, named r = false → t.reg r = s.reg r

/-- From s to t only general registers among those named and PC changed, PC to npc; every byte of memory reads as before. -/
def WritesOnlyRegs (named : Reg → Bool) (s t : State) : Prop :=
  SameRegsBut named s t ∧ t.pc = s.pc + 2 ∧ t = { s with v := t.v, pc := t.pc } ∧ SameBytes s t

/-- R176: `s` after taking a fault: the record is latched, the core is halted, all else is as before the step (D2, log
entry 3; the cause's code: D3, log entry 4). -/
def faulted (s : State) (cause : Fault) (fword : Word) (faddr : Nat) : State :=
  { s with run := .halted, fcause := cause.code, fpc := s.pc, fword := fword, faddr := BitVec.ofNat 16 faddr }

/-- The word whose high byte is at `a`. -/
def State.wordAt (s : State) (a : Nat) : Word := wordOfBytes (s.byteAt a) (s.byteAt (a + 1))

/-- The gate of R90 is open: a STEP would fetch. -/
def State.Ready (s : State) : Prop := s.run = .running ∧ s.wait = none

/-- R21: the general registers an instruction writes when it executes (Fx0A writes its register later, at its wake). -/
def writesReg (i : Instr) (r : Reg) : Bool :=
  match i with
  | .ldImm x _ | .addImm x _ | .ldReg x _ | .orReg x _ | .andReg x _ | .xorReg x _ | .rnd x _ | .ldVxDt x => r == x
  | .addReg x _ | .subReg x _ | .shr x _ | .subnReg x _ | .shl x _ => r == x || r == vf
  | .drw _ _ _ => r == vf
  | .ldBlock x => r ≤ x
  | .cls | .ret | .jp _ | .call _ | .seImm _ _ | .sneImm _ _ | .seReg _ _ | .sneReg _ _ | .ldI _ | .jpV0 _ | .skp _
  | .sknp _ | .ldVxK _ | .ldDtVx _ | .ldStVx _ | .addI _ | .ldF _ | .ldB _ | .stBlock _ => false

/-- R23: the instructions that write I. -/
def writesIndex : Instr → Bool
  | .ldI _ | .addI _ | .ldF _ => true
  | .cls | .ret | .jp _ | .call _ | .seImm _ _ | .sneImm _ _ | .seReg _ _ | .sneReg _ _ | .jpV0 _ | .skp _ | .sknp _
  | .ldVxK _ | .ldDtVx _ | .ldStVx _ | .ldB _ | .stBlock _ | .ldBlock _ | .drw _ _ _ | .ldImm _ _ | .addImm _ _
  | .ldReg _ _ | .orReg _ _ | .andReg _ _ | .xorReg _ _ | .rnd _ _ | .ldVxDt _ | .addReg _ _ | .subReg _ _ | .shr _ _
  | .subnReg _ _ | .shl _ _ => false

/-- R50: the bytes an instruction may store to, as how many of them there are from I up; 0 for every instruction that stores nothing. -/
def storedBytes : Instr → Nat
  | .ldB _ => 3
  | .stBlock x => x.val + 1
  | .cls | .ret | .jp _ | .call _ | .seImm _ _ | .sneImm _ _ | .seReg _ _ | .sneReg _ _ | .jpV0 _ | .skp _ | .sknp _
  | .ldVxK _ | .ldDtVx _ | .ldStVx _ | .ldI _ | .addI _ | .ldF _ | .ldBlock _ | .drw _ _ _ | .ldImm _ _ | .addImm _ _
  | .ldReg _ _ | .orReg _ _ | .andReg _ _ | .xorReg _ _ | .rnd _ _ | .ldVxDt _ | .addReg _ _ | .subReg _ _ | .shr _ _
  | .subnReg _ _ | .shl _ _ => 0

/-- R66, R172, R173: the cause of the fault an instruction takes in a state, or none. -/
def faultOf (i : Instr) (s : State) : Option Fault :=
  match i with
  | .ret => if s.sp.val = 0 then some .stackUnderflow else none
  | .call _ => if s.sp.val = 16 then some .stackOverflow else none
  | .drw _ _ n => if 1 ≤ n.val ∧ 0xFFF < s.i.toNat + n.val - 1 then some .addressOutOfRange else none
  | .ldB _ => if 0xFFF < s.i.toNat + 2 then some .addressOutOfRange else none
  | .stBlock x | .ldBlock x => if 0xFFF < s.i.toNat + x.val then some .addressOutOfRange else none
  | .cls | .jp _ | .seImm _ _ | .sneImm _ _ | .seReg _ _ | .sneReg _ _ | .jpV0 _ | .skp _ | .sknp _ | .ldVxK _ | .ldDtVx _
  | .ldStVx _ | .ldI _ | .addI _ | .ldF _ | .ldImm _ _ | .addImm _ _ | .ldReg _ _ | .orReg _ _ | .andReg _ _
  | .xorReg _ _ | .rnd _ _ | .ldVxDt _ | .addReg _ _ | .subReg _ _ | .shr _ _ | .subnReg _ _ | .shl _ _ => none

/-- R151: the sprite whose row r is `row r`, `n` rows high, at origin (ox, oy), has a bit of 1 over the cell at column cx, row cy:
bit 7 of a row is column 0, and each coordinate wraps on its own. -/
def spriteCovers (row : Nat → Byte) (n ox oy : Nat) (cx : Fin 64) (cy : Fin 32) : Prop :=
  ∃ r c : Nat, r < n ∧ c < 8 ∧ (ox + c) % 64 = cx.val ∧ (oy + r) % 32 = cy.val ∧ (row r).getLsbD (7 - c) = true

/-- R151: the sprite a DRW draws in a state: `n` bytes from I up, at the origin (V[x], V[y]). -/
def drawnOver (s : State) (x y : Reg) (n : Fin 16) (cx : Fin 64) (cy : Fin 32) : Prop :=
  spriteCovers (fun r => s.byteAt (s.i.toNat + r)) n.val (s.reg x).toNat (s.reg y).toNat cx cy

/-- A KEY event that is a key-down edge in a state (R12, R183). -/
def isEdgeEvent (s : State) : HostEvent → Bool
  | .key code down => isEdge s code down
  | .reset | .load _ | .step _ | .tick => false

/-- RESET, or a LOAD whose image fits: the events that put the core at its reset state (R200, R201). -/
def isRestart : HostEvent → Bool
  | .reset => true
  | .load image => imageFits image
  | .step _ | .tick | .key _ _ => false

/-- R32, R170: what the latched record of a HALTED core says. -/
def FaultRecordOk (s : State) : Prop :=
  s.fpc = s.pc ∧
  ((s.fcause = 1 ∧ legalWord s.fword = false ∧ s.faddr = 0) ∨
   (s.fcause = 2 ∧ s.sp = 16 ∧ s.faddr = 0) ∨
   (s.fcause = 3 ∧ s.sp = 0 ∧ s.fword = 0x00EE ∧ s.faddr = 0) ∨
   (s.fcause = 4 ∧ 0x1000 ≤ s.faddr.toNat)) ∧
  s.fword = (if s.pc.toNat ≤ 0xFFE then s.wordAt s.pc.toNat else 0)

/-- What every event keeps (R24, R25, R42, R189). `SP ≤ 16` and the widths hold by the types. -/
structure Inv (s : State) : Prop where
  /-- The memory is in its canonical form. -/
  memCanonical : s.mem.wf s.font = true
  /-- R24: the largest value any rule can put into PC is 0x10FE. -/
  pcBound : s.pc.toNat ≤ 0x10FE
  /-- R100: a valid stack entry was some CALL's npc. -/
  stackBound : ∀ k : Fin 16, k.val < s.sp.val → 0x002 ≤ s.stack[k.val].toNat ∧ s.stack[k.val].toNat ≤ 0x1000
  /-- R42, R189: a wait is pending only while RUNNING, at an Fx0A with that register, which was fetched. -/
  waitAtFx0A : ∀ x, s.wait = some x →
    s.run = .running ∧ s.pc.toNat ≤ 0xFFE ∧ s.wordAt s.pc.toNat = encode (.ldVxK x)
  /-- R42: HALTED implies a cause in 1..4, and the record describes the fault. -/
  haltedRecord : s.run = .halted → FaultRecordOk s
  /-- R170: RUNNING, there is no fault recorded. -/
  runningRecord : s.run = .running → s.faultRecord = ⟨0, 0, 0, 0⟩

/-- R97 (D22, log entry 34): the recommended end of a run: RUNNING, not waiting, and the word at PC is a jump to PC. A convention of
programs, not something the core detects. -/
def endOfRun (s : State) : Bool :=
  s.run == .running && s.wait == none && decide (s.pc.toNat ≤ 0xFFE) &&
    s.wordAt s.pc.toNat == BitVec.ofNat 16 (0x1000 + s.pc.toNat)

end Sys2Proof.Machine
end

