-- ==== Sys2Proof/Certificates/Slice0/Obligations.lean ====
section
/-! DEFINITION. The statements for the provers. Each docstring names the rule of spec/ it formalises, and the log entry a clause rests on
where the spec marks it as a decision or as general knowledge. -/

section
open Sys2Proof Sys2Proof.Machine

/-! ### The step -/

/-- R90 to R94: with no host event queued and the gate open, a step at a legal word is `exec` of the instruction it decodes to. -/
def Obligations.StepRunsDecodedInstruction : Prop :=
  ∀ (s : State) (i : Instr), s.events = [] → s.Ready → s.pc.toNat ≤ 0xFFE → decode (s.wordAt s.pc.toNat) = .ok i →
    step s = exec i s

/-- R7, log entry 1: with host events queued, a step applies the oldest one to the state without it. -/
def Obligations.StepAppliesOldestEvent : Prop :=
  ∀ (s : State) (e : HostEvent) (rest : List HostEvent), s.events = e :: rest →
    step s = applyEvent e { s with events := rest }

/-- R90 (what HALTED is: D4, log entry 5): a STEP that HALTED or a pending wait gates changes nothing (the byte it carried is
gone: the model's field `rnd`); otherwise the instruction at PC runs. -/
def Obligations.GatedStepChangesNothing : Prop :=
  ∀ (s : State) (r : Byte),
    (¬ s.Ready → applyEvent (.step r) s = .next { s with rnd := none } ∧ (s.events = [] → step s = .next s)) ∧
    (s.Ready → s.pc.toNat ≤ 0xFFE → ∀ i, decode (s.wordAt s.pc.toNat) = .ok i →
      applyEvent (.step r) s = onNext (fun t => { t with rnd := none }) (exec i { s with rnd := some r }))

/-- R91: the fetched word is `mem[PC] ++ mem[PC+1]` at any PC up to 0xFFE; above, the step raises AddressOutOfRange with FWORD = 0 and
FADDR = max(PC, 0x1000). That an odd PC fetches like any other and that PC is not masked is the spec's decision D8 (log entry 11); the
fault entry is its decisions D2, D3 (log entries 3, 4). -/
def Obligations.FetchReadsBigEndianOrFaults : Prop :=
  ∀ s : State, s.Ready →
    (s.pc.toNat ≤ 0xFFE →
      ∃ w, fetch s = .ok w ∧ w.toNat = (s.byteAt s.pc.toNat).toNat * 256 + (s.byteAt (s.pc.toNat + 1)).toNat) ∧
    (0xFFE < s.pc.toNat → stepEvent s = .next (faulted s .addressOutOfRange 0 (max s.pc.toNat 0x1000)))

/-- R92, R171: DecodeError is raised for exactly the words that match no row of the opcode table (`legalWord` is written from the
table's match and mask columns, apart from the decoder), with FPC the address of the word and FWORD the word. The fault entry is the spec's decisions D2, D3
(log entries 3, 4). -/
def Obligations.DecodeErrorExactlyOnIllegalWords : Prop :=
  ∀ s : State, s.Ready → s.pc.toNat ≤ 0xFFE →
    (legalWord (s.wordAt s.pc.toNat) = false → stepEvent s = .next (faulted s .decodeError (s.wordAt s.pc.toNat) 0)) ∧
    (legalWord (s.wordAt s.pc.toNat) = true →
      ∃ i, decode (s.wordAt s.pc.toNat) = .ok i ∧ stepEvent s = exec i s)

/-- R209, for a step that completes: every step answers a next state, from every state. That a step which faults answers one too, and
nothing stops the model, is log entry 3 (the spec's decision D2); that a STEP does nothing while HALTED is D4 (log entry 5). -/
def Obligations.StepAnswersNextEverywhere : Prop :=
  ∀ s : State, ∃ t, step s = .next t

/-- R96: the byte of a STEP is read by Cxkk alone: for every other instruction the outcome is the same whatever byte the step carries
and whatever the free value is. -/
def Obligations.RandomByteReadOnlyByRnd : Prop :=
  ∀ (i : Instr) (s : State) (r : Option Byte) (n : Nat), (∀ x kk, i ≠ .rnd x kk) →
    exec i { s with rnd := r, rndDraws := n } = onNext (fun t => { t with rnd := r, rndDraws := n }) (exec i s)

/-- R97 (D22, log entry 34): at a jump to itself a step changes nothing. -/
def Obligations.JumpToSelfIsSteady : Prop :=
  ∀ s : State, endOfRun s = true → s.events = [] → step s = .next s

/-- Log entry 26: the word placed by `withFetchWord` is the one the very next step runs. -/
def Obligations.PlacedWordRunsNext : Prop :=
  ∀ (s : State) (w : Nat) (i : Instr), s.mem.wf s.font = true → decodeTableWord 16 w = some i →
    step (s.withFetchWord 16 w) = exec i (s.withFetchWord 16 w)

/-! ### Encoding -/

/-- R70 to R74: decoding the word, or the bytes, of any instruction with any operands gives it back. -/
def Obligations.DecodeOfEncodeIsIdentity : Prop :=
  ∀ i : Instr, decode (encode i) = .ok i ∧ ∀ rest, decodeBytes (encodeBytes i ++ rest) = .ok (i, rest)

/-- R74, R77: a word the decoder accepts is the word of the instruction it gives, so no bit of it is dropped. -/
def Obligations.EncodeOfDecodeIsIdentity : Prop :=
  ∀ (w : Word) (i : Instr), decode w = .ok i → encode i = w

/-- R74: at most one row of the opcode table covers a word. -/
def Obligations.OpcodeRowsNeverOverlap : Prop :=
  ∀ (w : Word) (r q : OpRow), r ∈ opcodeTable → q ∈ opcodeTable → r.covers w = true → q.covers w = true → r = q

/-- R75: the illegal words, family by family, as numbers; families 1 to 4, 6, 7 and A to D have none. -/
def Obligations.IllegalWordsByFamily : Prop :=
  ∀ w : Word, legalWord w = false ↔
    (w.toNat / 0x1000 = 0x0 ∧ w.toNat ≠ 0x00E0 ∧ w.toNat ≠ 0x00EE) ∨
    ((w.toNat / 0x1000 = 0x5 ∨ w.toNat / 0x1000 = 0x9) ∧ w.toNat % 16 ≠ 0) ∨
    (w.toNat / 0x1000 = 0x8 ∧ 7 < w.toNat % 16 ∧ w.toNat % 16 ≠ 0xE) ∨
    (w.toNat / 0x1000 = 0xE ∧ w.toNat % 256 ≠ 0x9E ∧ w.toNat % 256 ≠ 0xA1) ∨
    (w.toNat / 0x1000 = 0xF ∧ w.toNat % 256 ∉ [0x07, 0x0A, 0x15, 0x18, 0x1E, 0x29, 0x33, 0x55, 0x65])

/-- R81: the worked decodes. -/
def Obligations.WorkedDecodes : Prop :=
  decode 0x600A = .ok (.ldImm 0 10) ∧ decode 0x8014 = .ok (.addReg 0 1) ∧ decode 0x8F14 = .ok (.addReg 15 1) ∧
  decode 0xD12A = .ok (.drw 1 2 10) ∧ decode 0xF00A = .ok (.ldVxK 0) ∧ decode 0xB2FF = .ok (.jpV0 0x2FF) ∧
  ∀ w ∈ [(0x0000 : Word), 0x0123, 0x5121, 0x812F, 0x9AB1, 0xE19F, 0xF100, 0xF075], decode w = .error (.illegalWord w)

/-! ### Control transfer -/

/-- R101: JP nnn. -/
def Obligations.JumpSetsProgramCounter : Prop :=
  ∀ (nnn : BitVec 12) (s : State), decode (formatA 0x1 nnn) = .ok (.jp nnn) ∧
    ∃ t, exec (.jp nnn) s = .next t ∧ t.pc.toNat = nnn.toNat ∧ t = { s with pc := t.pc } ∧ SameBytes s t

/-- R107: JP V0, nnn. That the sum is not reduced modulo 4096 is the spec's decision D8 (log entry 11). Above 0xFFE the next STEP's
fetch raises AddressOutOfRange; the fault entry is D2, D3 (log entries 3, 4). -/
def Obligations.OffsetJumpAddsV0 : Prop :=
  ∀ (nnn : BitVec 12) (s : State), decode (formatA 0xB nnn) = .ok (.jpV0 nnn) ∧
    ∃ t, exec (.jpV0 nnn) s = .next t ∧ t.pc.toNat = nnn.toNat + (s.reg 0).toNat ∧ t = { s with pc := t.pc } ∧
      SameBytes s t ∧
      (s.Ready → 0xFFE < t.pc.toNat → stepEvent t = .next (faulted t .addressOutOfRange 0 (max t.pc.toNat 0x1000)))

/-- R102, R172: CALL nnn pushes npc, or raises StackOverflow on a full stack. The fault entry is the spec's decisions D2, D3
(log entries 3, 4). -/
def Obligations.CallPushesReturnAddress : Prop :=
  ∀ (nnn : BitVec 12) (s : State), decode (formatA 0x2 nnn) = .ok (.call nnn) ∧
    (∀ h : s.sp.val < 16, ∃ t, exec (.call nnn) s = .next t ∧ t.pc.toNat = nnn.toNat ∧ t.sp.val = s.sp.val + 1 ∧
      t.stack[s.sp.val] = s.pc + 2 ∧ (∀ k : Fin 16, k.val ≠ s.sp.val → t.stack[k.val] = s.stack[k.val]) ∧
      t = { s with pc := t.pc, sp := t.sp, stack := t.stack } ∧ SameBytes s t) ∧
    (s.sp.val = 16 → exec (.call nnn) s = .next (faulted s .stackOverflow (encode (.call nnn)) 0))

/-- R100, R173: RET pops the newest entry, or raises StackUnderflow on an empty stack. The fault entry is the spec's decisions D2, D3
(log entries 3, 4). -/
def Obligations.ReturnPopsNewestEntry : Prop :=
  ∀ s : State, decode 0x00EE = .ok .ret ∧
    (∀ h : 0 < s.sp.val, ∃ t, exec .ret s = .next t ∧ t.pc = s.stack[s.sp.val - 1]'(by omega) ∧ t.sp.val = s.sp.val - 1 ∧
      t = { s with pc := t.pc, sp := t.sp } ∧ SameBytes s t) ∧
    (s.sp.val = 0 → exec .ret s = .next (faulted s .stackUnderflow 0x00EE 0))

/-- R108: CALL then RET, with the stack as the CALL left it, restores PC to the instruction after the CALL and the stack's depth. -/
def Obligations.CallThenReturnRestoresPc : Prop :=
  ∀ (nnn : BitVec 12) (s t u : State), s.sp.val < 16 → exec (.call nnn) s = .next t → u.stack = t.stack → u.sp = t.sp →
    ∃ w, exec .ret u = .next w ∧ w.pc = s.pc + 2 ∧ w.sp = s.sp ∧
      (∀ k : Fin 16, k.val < s.sp.val → w.stack[k.val] = s.stack[k.val]) ∧ w = { u with pc := w.pc, sp := w.sp }

/-- R103 to R106: the four register skips, PC to npc + 2 or npc, and nothing else. -/
def Obligations.RegisterSkips : Prop :=
  ∀ (x y : Reg) (kk : Byte) (s : State),
    exec (.seImm x kk) s = .next { s with pc := if s.reg x = kk then s.pc + 4 else s.pc + 2 } ∧
    exec (.sneImm x kk) s = .next { s with pc := if s.reg x ≠ kk then s.pc + 4 else s.pc + 2 } ∧
    exec (.seReg x y) s = .next { s with pc := if s.reg x = s.reg y then s.pc + 4 else s.pc + 2 } ∧
    exec (.sneReg x y) s = .next { s with pc := if s.reg x ≠ s.reg y then s.pc + 4 else s.pc + 2 } ∧
    decode (formatXK 0x3 x kk) = .ok (.seImm x kk) ∧ decode (formatXK 0x4 x kk) = .ok (.sneImm x kk) ∧
    decode (formatXYN 0x5 x y 0) = .ok (.seReg x y) ∧ decode (formatXYN 0x9 x y 0) = .ok (.sneReg x y)

/-! ### Arithmetic and logic -/

/-- R120, R121: LD Vx, kk and ADD Vx, kk write Vx alone, the sum modulo 256; VF is not a flag of theirs. -/
def Obligations.ImmediateLoadAndAdd : Prop :=
  ∀ (x : Reg) (kk : Byte) (s : State),
    (∃ t, exec (.ldImm x kk) s = .next t ∧ t.reg x = kk ∧ WritesOnlyRegs (· == x) s t) ∧
    (∃ t, exec (.addImm x kk) s = .next t ∧ (t.reg x).toNat = ((s.reg x).toNat + kk.toNat) % 256 ∧
      WritesOnlyRegs (· == x) s t) ∧
    decode (formatXK 0x6 x kk) = .ok (.ldImm x kk) ∧ decode (formatXK 0x7 x kk) = .ok (.addImm x kk)

/-- R122 to R125, R134: the copy and the bitwise operations write Vx alone. The spec marks 8xy0 and the sub-opcode numbers as general
knowledge (log entry 21) and VF's being kept as its decision D16 (log entry 19). -/
def Obligations.CopyAndLogicKeepVf : Prop :=
  ∀ (x y : Reg) (s : State),
    (∃ t, exec (.ldReg x y) s = .next t ∧ t.reg x = s.reg y ∧ WritesOnlyRegs (· == x) s t) ∧
    (∃ t, exec (.orReg x y) s = .next t ∧
      (∀ k : Nat, (t.reg x).getLsbD k = ((s.reg x).getLsbD k || (s.reg y).getLsbD k)) ∧ WritesOnlyRegs (· == x) s t) ∧
    (∃ t, exec (.andReg x y) s = .next t ∧
      (∀ k : Nat, (t.reg x).getLsbD k = ((s.reg x).getLsbD k && (s.reg y).getLsbD k)) ∧ WritesOnlyRegs (· == x) s t) ∧
    (∃ t, exec (.xorReg x y) s = .next t ∧
      (∀ k : Nat, (t.reg x).getLsbD k = ((s.reg x).getLsbD k ^^ (s.reg y).getLsbD k)) ∧ WritesOnlyRegs (· == x) s t) ∧
    decode (formatXYN 0x8 x y 0) = .ok (.ldReg x y) ∧ decode (formatXYN 0x8 x y 1) = .ok (.orReg x y) ∧
    decode (formatXYN 0x8 x y 2) = .ok (.andReg x y) ∧ decode (formatXYN 0x8 x y 3) = .ok (.xorReg x y)

/-- R126: ADD Vx, Vy: the sum modulo 256 in Vx, and VF = 1 iff the untruncated sum exceeds 255; with x = 15 the sum is what stays. -/
def Obligations.AddSetsCarry : Prop :=
  ∀ (x y : Reg) (s : State), decode (formatXYN 0x8 x y 4) = .ok (.addReg x y) ∧
    ∃ t, exec (.addReg x y) s = .next t ∧ (t.reg x).toNat = ((s.reg x).toNat + (s.reg y).toNat) % 256 ∧
      (x ≠ vf → t.reg vf = if 255 < (s.reg x).toNat + (s.reg y).toNat then 1 else 0) ∧
      WritesOnlyRegs (fun r => r == x || r == vf) s t

/-- R127, R129: SUB and SUBN: the difference modulo 256 in Vx, and VF = 1 iff no borrow, from the operands before the write. That with
x = 15 the result wins is the spec's decision D15 (log entry 18). -/
def Obligations.SubtractionsSetNoBorrow : Prop :=
  ∀ (x y : Reg) (s : State),
    (∃ t, exec (.subReg x y) s = .next t ∧
      ((t.reg x).toNat : Int) = ((s.reg x).toNat - (s.reg y).toNat : Int) % 256 ∧
      (x ≠ vf → t.reg vf = if (s.reg y).toNat ≤ (s.reg x).toNat then 1 else 0) ∧
      WritesOnlyRegs (fun r => r == x || r == vf) s t) ∧
    (∃ t, exec (.subnReg x y) s = .next t ∧
      ((t.reg x).toNat : Int) = ((s.reg y).toNat - (s.reg x).toNat : Int) % 256 ∧
      (x ≠ vf → t.reg vf = if (s.reg x).toNat ≤ (s.reg y).toNat then 1 else 0) ∧
      WritesOnlyRegs (fun r => r == x || r == vf) s t) ∧
    decode (formatXYN 0x8 x y 5) = .ok (.subReg x y) ∧ decode (formatXYN 0x8 x y 7) = .ok (.subnReg x y)

/-- R128, R130: SHR and SHL shift Vx in place by one, VF gets the bit shifted out, and the field y is ignored. That with x = 15 the
result wins is the spec's decision D15 (log entry 18). -/
def Obligations.ShiftsByOne : Prop :=
  ∀ (x y : Reg) (s : State),
    (∃ t, exec (.shr x y) s = .next t ∧ (t.reg x).toNat = (s.reg x).toNat / 2 ∧
      (x ≠ vf → (t.reg vf).toNat = (s.reg x).toNat % 2) ∧ WritesOnlyRegs (fun r => r == x || r == vf) s t) ∧
    (∃ t, exec (.shl x y) s = .next t ∧ (t.reg x).toNat = (s.reg x).toNat * 2 % 256 ∧
      (x ≠ vf → (t.reg vf).toNat = (s.reg x).toNat / 128) ∧ WritesOnlyRegs (fun r => r == x || r == vf) s t) ∧
    (∀ z, exec (.shr x y) s = exec (.shr x z) s ∧ exec (.shl x y) s = exec (.shl x z) s) ∧
    decode (formatXYN 0x8 x y 6) = .ok (.shr x y) ∧ decode (formatXYN 0x8 x y 0xE) = .ok (.shl x y)

/-- R131 (D18, log entry 2): Vx gets the random byte masked by kk, whichever byte it is: the one the STEP carries where it carries one.
No bit outside kk is set. The byte is used up and the count of draws advances (the model's fields). -/
def Obligations.RandomByteIsMasked : Prop :=
  ∀ (x : Reg) (kk : Byte) (s : State),
    ∃ (r : Byte) (t : State), exec (.rnd x kk) s = .next t ∧ t.reg x = r &&& kk ∧ (∀ q, s.rnd = some q → r = q) ∧
      SameRegsBut (· == x) s t ∧ t.pc = s.pc + 2 ∧ t.rnd = none ∧ t.rndDraws = s.rndDraws + 1 ∧
      t = { s with v := t.v, pc := t.pc, rnd := t.rnd, rndDraws := t.rndDraws } ∧ SameBytes s t ∧
      decode (formatXK 0xC x kk) = .ok (.rnd x kk)

/-! ### Index register and memory -/

/-- R140: LD I, nnn. -/
def Obligations.LoadIndexImmediate : Prop :=
  ∀ (nnn : BitVec 12) (s : State), decode (formatA 0xA nnn) = .ok (.ldI nnn) ∧
    ∃ t, exec (.ldI nnn) s = .next t ∧ t.i.toNat = nnn.toNat ∧ t.pc = s.pc + 2 ∧
      t = { s with i := t.i, pc := t.pc } ∧ SameBytes s t

/-- R141, R142: ADD I, Vx and LD F, Vx write I and PC alone and cannot fault. The wrap modulo 65536 is the spec's decision D9 (log entry
12), the use of the whole byte its decision D12 (log entry 15). -/
def Obligations.IndexArithmetic : Prop :=
  ∀ (x : Reg) (s : State),
    (∃ t, exec (.addI x) s = .next t ∧ t.i.toNat = (s.i.toNat + (s.reg x).toNat) % 65536 ∧ t.pc = s.pc + 2 ∧
      t = { s with i := t.i, pc := t.pc } ∧ SameBytes s t) ∧
    (∃ t, exec (.ldF x) s = .next t ∧ t.i.toNat = 5 * (s.reg x).toNat ∧ t.pc = s.pc + 2 ∧
      t = { s with i := t.i, pc := t.pc } ∧ SameBytes s t) ∧
    decode (formatX 0xF x 0x1E) = .ok (.addI x) ∧ decode (formatX 0xF x 0x29) = .ok (.ldF x)

/-- R143: LD B, Vx stores the three decimal digits of Vx at I, I+1, I+2, or raises AddressOutOfRange and stores nothing. The fault entry is the spec's decisions D2, D3
(log entries 3, 4). -/
def Obligations.BcdStoresDigits : Prop :=
  ∀ (x : Reg) (s : State), s.mem.wf s.font = true →
    decode (formatX 0xF x 0x33) = .ok (.ldB x) ∧
    (s.i.toNat ≤ 0xFFD → ∃ t, exec (.ldB x) s = .next t ∧
      (t.byteAt s.i.toNat).toNat = (s.reg x).toNat / 100 ∧
      (t.byteAt (s.i.toNat + 1)).toNat = (s.reg x).toNat / 10 % 10 ∧
      (t.byteAt (s.i.toNat + 2)).toNat = (s.reg x).toNat % 10 ∧
      SameBytesOutside s.i.toNat 3 s t ∧ t.pc = s.pc + 2 ∧ t = { s with mem := t.mem, pc := t.pc }) ∧
    (0xFFD < s.i.toNat → exec (.ldB x) s = .next (faulted s .addressOutOfRange (encode (.ldB x)) (max s.i.toNat 0x1000)))

/-- R144 (I unchanged: D10, log entry 13): LD [I], Vx stores V0..Vx, x + 1 bytes, or raises AddressOutOfRange and stores nothing. The fault entry is the spec's decisions D2, D3
(log entries 3, 4). -/
def Obligations.BlockStoreWritesMemory : Prop :=
  ∀ (x : Reg) (s : State), s.mem.wf s.font = true →
    decode (formatX 0xF x 0x55) = .ok (.stBlock x) ∧
    (s.i.toNat + x.val ≤ 0xFFF → ∃ t, exec (.stBlock x) s = .next t ∧
      (∀ r : Reg, r ≤ x → t.byteAt (s.i.toNat + r.val) = s.reg r) ∧
      SameBytesOutside s.i.toNat (x.val + 1) s t ∧ t.pc = s.pc + 2 ∧ t = { s with mem := t.mem, pc := t.pc }) ∧
    (0xFFF < s.i.toNat + x.val →
      exec (.stBlock x) s = .next (faulted s .addressOutOfRange (encode (.stBlock x)) (max s.i.toNat 0x1000)))

/-- R145 (I unchanged: D10, log entry 13): LD Vx, [I] loads V0..Vx, or raises AddressOutOfRange and writes no register. The fault entry is the spec's decisions D2, D3
(log entries 3, 4). -/
def Obligations.BlockLoadReadsMemory : Prop :=
  ∀ (x : Reg) (s : State),
    decode (formatX 0xF x 0x65) = .ok (.ldBlock x) ∧
    (s.i.toNat + x.val ≤ 0xFFF → ∃ t, exec (.ldBlock x) s = .next t ∧
      (∀ r : Reg, r ≤ x → t.reg r = s.byteAt (s.i.toNat + r.val)) ∧ WritesOnlyRegs (fun r => r ≤ x) s t) ∧
    (0xFFF < s.i.toNat + x.val →
      exec (.ldBlock x) s = .next (faulted s .addressOutOfRange (encode (.ldBlock x)) (max s.i.toNat 0x1000)))

/-- R147: a store of V0..Vx, then any change of registers, then a load with the same x and the same I restores V0..Vx exactly and no
other register, and the store touched x + 1 bytes, no more. -/
def Obligations.BlockStoreLoadRoundTrip : Prop :=
  ∀ (x : Reg) (s t u : State), s.mem.wf s.font = true → s.i.toNat + x.val ≤ 0xFFF → exec (.stBlock x) s = .next t →
    SameBytes t u → u.i = s.i →
    SameBytesOutside s.i.toNat (x.val + 1) s t ∧
    ∃ w, exec (.ldBlock x) u = .next w ∧ (∀ r : Reg, r ≤ x → w.reg r = s.reg r) ∧ (∀ r : Reg, x < r → w.reg r = u.reg r)

/-- R61 (D23, log entry 22): bytes a block store wrote where the next step fetches are the word it fetches. -/
def Obligations.StoreIsSeenByNextFetch : Prop :=
  ∀ (x r q : Reg) (s t : State), s.mem.wf s.font = true → s.i.toNat + x.val ≤ 0xFFF → exec (.stBlock x) s = .next t →
    q ≤ x → q.val = r.val + 1 → t.pc.toNat = s.i.toNat + r.val →
    fetch t = .ok (wordOfBytes (s.reg r) (s.reg q))

/-- R56: MemRead; `n = 0` never faults; the bytes come in ascending order, each the value last written. The check of the whole range, the
unwrapped sum and the fault in place of a wrap are the spec's decisions D2 and D7 (log entry 10), the first offending address its
decision D3 (log entry 4). -/
def Obligations.MemReadChecksRange : Prop :=
  ∀ (font : Font) (m : Memory) (addr n : Nat), addr ≤ 0xFFFF →
    (1 ≤ n → 0xFFF < addr + n - 1 → ∃ e, memRead font m addr n = .error e ∧ e.toNat = max addr 0x1000) ∧
    (1 ≤ n → addr + n - 1 ≤ 0xFFF →
      ∃ bytes, memRead font m addr n = .ok bytes ∧ bytes.length = n ∧ ∀ k, k < n → bytes[k]? = some (m.read font (addr + k))) ∧
    memRead font m addr 0 = .ok [] ∧
    (∀ bytes m', m.wf font = true → memWrite font m addr bytes = .ok m' → memRead font m' addr bytes.length = .ok bytes)

/-- R57 (D2, log entry 10; the first offending address: D3, log entry 4): MemWrite stores all its bytes and no other, and keeps the canonical
form; beyond 0xFFF it stores none. -/
def Obligations.MemWriteStoresWholeRun : Prop :=
  ∀ (font : Font) (m : Memory) (addr : Nat) (bytes : List Byte), m.wf font = true → addr ≤ 0xFFFF → 1 ≤ bytes.length →
    (0xFFF < addr + bytes.length - 1 → ∃ e, memWrite font m addr bytes = .error e ∧ e.toNat = max addr 0x1000) ∧
    (addr + bytes.length - 1 ≤ 0xFFF → ∃ m', memWrite font m addr bytes = .ok m' ∧ m'.wf font = true ∧
      (∀ k (h : k < bytes.length), m'.read font (addr + k) = bytes[k]) ∧
      (∀ a, a < addr ∨ addr + bytes.length ≤ a → m'.read font a = m.read font a))

/-- R50, R59: equal bytes are equal data: a canonical memory is determined by what its addresses read as. -/
def Obligations.CanonicalMemoryIsDeterminedByReads : Prop :=
  ∀ (font : Font) (m m' : Memory), m.wf font = true → m'.wf font = true → (∀ a, m.read font a = m'.read font a) → m = m'

/-! ### The display -/

/-- R150: CLS clears all 2048 cells and writes nothing else; the result does not depend on what was drawn before (idempotent reset). -/
def Obligations.ClearScreenClearsEveryCell : Prop :=
  decode 0x00E0 = .ok .cls ∧
  (∀ s : State, ∃ t, exec .cls s = .next t ∧ (∀ cx cy, t.disp.cell cx cy = false) ∧ t.pc = s.pc + 2 ∧
    t = { s with disp := t.disp, pc := t.pc } ∧ SameBytes s t) ∧
  (∀ s s' t t' : State, exec .cls s = .next t → exec .cls s' = .next t' → t.disp = t'.disp)

/-- R151 (Dxy0: D13, log entry 16): the row and column loops of DRW come to this, cell by cell: a cell under a sprite bit of 1 is
inverted, every other cell stays, and VF is 1 iff such a cell was 1. The fault entry is the spec's decisions D2, D3
(log entries 3, 4). -/
def Obligations.DrawXorsSpriteCellwise : Prop :=
  ∀ (x y : Reg) (n : Fin 16) (s : State), decode (formatXYN 0xD x y n.val) = .ok (.drw x y n) ∧
    (n.val = 0 ∨ s.i.toNat + n.val - 1 ≤ 0xFFF →
      ∃ t, exec (.drw x y n) s = .next t ∧
        (∀ cx cy, drawnOver s x y n cx cy → t.disp.cell cx cy = !s.disp.cell cx cy) ∧
        (∀ cx cy, ¬ drawnOver s x y n cx cy → t.disp.cell cx cy = s.disp.cell cx cy) ∧
        ((∃ cx cy, drawnOver s x y n cx cy ∧ s.disp.cell cx cy = true) → t.reg vf = 1) ∧
        ((¬ ∃ cx cy, drawnOver s x y n cx cy ∧ s.disp.cell cx cy = true) → t.reg vf = 0) ∧
        SameRegsBut (· == vf) s t ∧ t.pc = s.pc + 2 ∧ t = { s with v := t.v, disp := t.disp, pc := t.pc } ∧ SameBytes s t) ∧
    (1 ≤ n.val → 0xFFF < s.i.toNat + n.val - 1 →
      exec (.drw x y n) s = .next (faulted s .addressOutOfRange (encode (.drw x y n)) (max s.i.toNat 0x1000)))

/-- R152 (with n = 0, which draws nothing: D13, log entry 16): the same sprite at the same location a second time restores the display,
and then VF = 1 iff the sprite has a bit of 1 over a cell that was 0 before the first draw. -/
def Obligations.DrawTwiceRestoresDisplay : Prop :=
  ∀ (x y : Reg) (n : Fin 16) (s t u : State), (n.val = 0 ∨ s.i.toNat + n.val - 1 ≤ 0xFFF) →
    exec (.drw x y n) s = .next t → u.disp = t.disp → SameBytes s u → u.i = s.i → u.reg x = s.reg x → u.reg y = s.reg y →
    ∃ w, exec (.drw x y n) u = .next w ∧ w.disp = s.disp ∧
      (w.reg vf = 1 ↔ ∃ cx cy, drawnOver s x y n cx cy ∧ s.disp.cell cx cy = false)

/-! ### Timers and keypad -/

/-- R160, R161, R162: LD Vx, DT, LD DT, Vx and LD ST, Vx. -/
def Obligations.TimerInstructions : Prop :=
  ∀ (x : Reg) (s : State),
    (∃ t, exec (.ldVxDt x) s = .next t ∧ t.reg x = s.dt ∧ WritesOnlyRegs (· == x) s t) ∧
    exec (.ldDtVx x) s = .next { s with dt := s.reg x, pc := s.pc + 2 } ∧
    (∃ t, exec (.ldStVx x) s = .next t ∧ t = { s with st := s.reg x, pc := s.pc + 2 } ∧
      (t.tone = true ↔ 0 < (s.reg x).toNat)) ∧
    decode (formatX 0xF x 0x07) = .ok (.ldVxDt x) ∧ decode (formatX 0xF x 0x15) = .ok (.ldDtVx x) ∧
    decode (formatX 0xF x 0x18) = .ok (.ldStVx x)

/-- R163, R164 (the low 4 bits of V[x] select the key: D11, log entry 14): SKP and SKNP. -/
def Obligations.KeySkips : Prop :=
  ∀ (x : Reg) (s : State) (k : Fin 16), k.val = (s.reg x).toNat % 16 →
    exec (.skp x) s = .next { s with pc := if s.keyDown k = true then s.pc + 4 else s.pc + 2 } ∧
    exec (.sknp x) s = .next { s with pc := if s.keyDown k = false then s.pc + 4 else s.pc + 2 } ∧
    decode (formatX 0xE x 0x9E) = .ok (.skp x) ∧ decode (formatX 0xE x 0xA1) = .ok (.sknp x)

/-- R165 (D17, log entry 20): LD Vx, K registers the wait and changes nothing else, whatever keys are down: PC stays at the Fx0A. -/
def Obligations.WaitForKeyRegistersWait : Prop :=
  ∀ (x : Reg) (s : State), exec (.ldVxK x) s = .next { s with wait := some x } ∧
    decode (formatX 0xF x 0x0A) = .ok (.ldVxK x)

/-- R181: the TICK event: each timer minus 1 while it is not 0, and nothing else. That it acts in a HALTED core too is the spec's
decision D4 (log entry 5). -/
def Obligations.TickCountsDownTimers : Prop :=
  ∀ s : State, ∃ t, applyEvent .tick s = .next t ∧ t.dt.toNat = s.dt.toNat - 1 ∧ t.st.toNat = s.st.toNat - 1 ∧
    t = { s with dt := t.dt, st := t.st }

/-- R182: the tone sounds iff ST is not 0; it rises at an LD ST with a non-zero value, falls at the TICK that takes ST from 1 to 0, at
an LD ST with 0, and at RESET or LOAD. That those two give ST the value 0 is the spec's decision D6 (log entry 7); that TICK acts in a
HALTED core is D4 (log entry 5). -/
def Obligations.ToneFollowsSoundTimer : Prop :=
  ∀ s : State, (s.tone = true ↔ 0 < s.st.toNat) ∧
    (∀ x t, exec (.ldStVx x) s = .next t → (t.tone = true ↔ 0 < (s.reg x).toNat)) ∧
    (∀ t, applyEvent .tick s = .next t → (t.tone = true ↔ 1 < s.st.toNat)) ∧
    (∀ e t, isRestart e = true → applyEvent e s = .next t → t.tone = false)

/-- R183, R184: the KEY event sets one flag; a key-down edge during a wait also gives V[x] the code, clears the wait and advances PC.
That PC stood at the Fx0A, so that this event adds the 2, is the spec's decision D17 (log entry 20, conflict C3); that KEY sets the flag
of a HALTED core is D4 (log entry 5). -/
def Obligations.KeyEventEndsWait : Prop :=
  ∀ (code : Fin 16) (down : Bool) (s : State), ∃ t, applyEvent (.key code down) s = .next t ∧
    (∀ k : Fin 16, t.keyDown k = if k = code then down else s.keyDown k) ∧
    (∀ x, s.run = .running → s.wait = some x → down = true → s.keyDown code = false →
      (t.reg x).toNat = code.val ∧ SameRegsBut (· == x) s t ∧ t.wait = none ∧ t.pc = s.pc + 2 ∧
      t = { s with key := t.key, v := t.v, wait := t.wait, pc := t.pc }) ∧
    (s.run = .halted ∨ s.wait = none ∨ down = false ∨ s.keyDown code = true → t = { s with key := t.key })

/-- R166, R188 (PC standing at the Fx0A: D17, log entry 20): one event ends a pending wait iff it is a key-down edge, RESET, or a LOAD
that is accepted; any other event leaves registers, PC, memory and display alone. That a rejected LOAD is such an event is
the spec's decision D21 (log entry 24). -/
def Obligations.WaitEndsOnlyByEdgeOrRestart : Prop :=
  ∀ (e : HostEvent) (x : Reg) (s : State), s.run = .running → s.wait = some x →
    ∃ t, applyEvent e s = .next t ∧
      (t.wait = none ↔ isEdgeEvent s e = true ∨ isRestart e = true) ∧
      (isEdgeEvent s e = false → isRestart e = false →
        t.wait = some x ∧ t.run = .running ∧ t.pc = s.pc ∧ t.v = s.v ∧ t.mem = s.mem ∧ t.disp = s.disp)

/-- R166: without a key-down edge the core waits for ever: after any number of STEP, TICK and key-up events the wait is still pending at
the same instruction. A hang, not a fault. -/
def Obligations.WaitLastsWithoutEdge : Prop :=
  ∀ (es : List HostEvent) (x : Reg) (s : State), s.run = .running → s.wait = some x →
    (∀ e ∈ es, (∃ r, e = .step r) ∨ e = .tick ∨ ∃ c, e = .key c false) →
    ∃ t, runEvents es s = .next t ∧ t.wait = some x ∧ t.run = .running ∧ t.pc = s.pc ∧ t.v = s.v ∧ t.mem = s.mem

/-! ### Faults -/

/-- R66, R170, R176 (precise entry: D2, log entry 3; codes and FADDR: D3, log entry 4): an instruction takes exactly the fault the table
`faultOf` gives it, with nothing of it written, and otherwise leaves the run state and the fault record alone. -/
def Obligations.FaultsAreExactAndPrecise : Prop :=
  ∀ (i : Instr) (s : State),
    (∀ f, faultOf i s = some f →
      exec i s = .next (faulted s f (encode i) (if f = .addressOutOfRange then max s.i.toNat 0x1000 else 0))) ∧
    (faultOf i s = none →
      ∃ t, exec i s = .next t ∧ t.run = s.run ∧ t.faultRecord = s.faultRecord)

/-- R177, R189: whatever events come, as long as none of them is RESET or an accepted LOAD, a HALTED core stays HALTED with its fault
record and everything a program wrote; those two clear the record and run again. What TICK and KEY do while HALTED is D4 (log entry 5),
the cleared record D3 (log entry 4). That a rejected LOAD changes nothing is D21 (log entry 24). -/
def Obligations.HaltedUntilRestart : Prop :=
  ∀ s : State, s.run = .halted →
    (∀ es : List HostEvent, (∀ e ∈ es, isRestart e = false) →
      ∃ t, runEvents es s = .next t ∧ t.run = .halted ∧ t.faultRecord = s.faultRecord ∧ t.pc = s.pc ∧ t.v = s.v ∧ t.i = s.i ∧
        t.sp = s.sp ∧ t.stack = s.stack ∧ t.mem = s.mem ∧ t.disp = s.disp ∧ t.wait = s.wait) ∧
    (∀ e, isRestart e = true → ∃ t, applyEvent e s = .next t ∧ t.run = .running ∧ t.faultRecord = ⟨0, 0, 0, 0⟩)

/-! ### Reset and load -/

/-- R40, R200 (the values beyond V, PC, SP, WAIT and the font's place: D3 to D6, log entries 4 to 8): RESET, from every state, with
the machine's FONT whatever it is (log entry 9). The queue, the load ports' stream and the count of draws are the
model's and stay (log entry 25). -/
def Obligations.ResetEventRestoresResetState : Prop :=
  ∀ s : State, ∃ t, applyEvent .reset s = .next t ∧
    (∀ r, t.reg r = 0) ∧ t.i = 0 ∧ t.pc = 0x200 ∧ t.sp.val = 0 ∧ t.dt = 0 ∧ t.st = 0 ∧
    (∀ cx cy, t.disp.cell cx cy = false) ∧ (∀ k, t.keyDown k = false) ∧ t.wait = none ∧ t.run = .running ∧
    t.faultRecord = ⟨0, 0, 0, 0⟩ ∧ (∀ a (h : a < 80), t.byteAt a = s.font[a]) ∧
    (∀ a, 80 ≤ a → t.byteAt a = 0) ∧ t = { State.resetWith s.font with events := s.events, rndDraws := s.rndDraws, ldStream := s.ldStream }

/-- R201 (D21, log entry 24; the reset values beyond the source's: D3 to D6, log entries 4 to 8): LOAD is a RESET, with the machine's
FONT whatever it is (log entry 9), followed by the image at 0x200; an image over 3584 bytes changes nothing of the core and is reported
on the port `ld_error`. The queue, the load ports' stream and the count of draws are the model's and stay (log entry 25). -/
def Obligations.LoadEventPlacesImage : Prop :=
  ∀ (image : List Byte) (s : State),
    (image.length ≤ 3584 → ∃ t, applyEvent (.load image) s = .next t ∧
      (∀ k (h : k < image.length), t.byteAt (0x200 + k) = image[k]) ∧
      (∀ a, a < 0x200 ∨ 0x200 + image.length ≤ a → t.byteAt a = (State.resetWith s.font).byteAt a) ∧ t.mem.wf s.font = true ∧
      t = { State.resetWith s.font with mem := t.mem, events := s.events, rndDraws := s.rndDraws, ldStream := s.ldStream }) ∧
    (3584 < image.length → applyEvent (.load image) s = .next { s with ldError := true })

/-- R39 (the spec's own choice throughout, D1; log entry 33): the events of one clock cycle, queued in their order. A reset stands alone,
so does the completion of a load, and otherwise KEY comes before STEP before TICK, each if its strobe is set. -/
def Obligations.CycleAppliesEventsInOrder : Prop :=
  ∀ (s : State) (p : PortIn),
    (p.reset = true → s.clockCycle p = { s with events := s.events ++ [.reset], ldStream := [] }) ∧
    (p.reset = false → p.ldValid = true → p.ldLast = true →
      s.clockCycle p = { s with events := s.events ++ [.load (s.ldStream ++ [p.ldData])], ldStream := [] }) ∧
    (p.reset = false → p.ldValid = false ∨ p.ldLast = false → ∃ key step tick,
      key = (if p.keyValid then [.key p.keyCode p.keyDown] else []) ∧ step = (if p.step then [.step p.rnd] else []) ∧
      tick = (if p.tick then [.tick] else []) ∧
      s.clockCycle p = { s with
        events := s.events ++ key ++ step ++ tick
        ldStream := if p.ldValid then s.ldStream ++ [p.ldData] else s.ldStream })

/-- R39 (D1, log entry 33): the image streamed byte by byte, over as many cycles as it takes and with any KEY, STEP and TICK among them,
is one LOAD of those bytes in their order, which takes effect at its last byte: no LOAD is queued before it. -/
def Obligations.StreamedImageIsOneLoad : Prop :=
  ∀ (ps : List PortIn) (p : PortIn) (s : State), s.ldStream = [] →
    (∀ q ∈ ps, q.reset = false ∧ (q.ldValid = false ∨ q.ldLast = false)) →
    p.reset = false → p.ldValid = true → p.ldLast = true →
    (∀ e ∈ ps.flatMap PortIn.strobes, e ≠ .reset ∧ ∀ image, e ≠ .load image) ∧
    s.clockCycles (ps ++ [p]) =
      { s with events := s.events ++ ps.flatMap PortIn.strobes ++ [.load (ps.filterMap PortIn.imageByte ++ [p.ldData])] }

/-! ### The whole machine -/

/-- R21: an instruction leaves every general register alone that the table does not name as written by it. That one which faults leaves
all of them alone is the spec's decision D2 (log entry 3). -/
def Obligations.GeneralRegisterWriters : Prop :=
  ∀ (i : Instr) (s t : State) (r : Reg), exec i s = .next t → writesReg i r = false ∨ (faultOf i s).isSome = true →
    t.reg r = s.reg r

/-- R23, R25 to R27, R29, R30: I, the stack, the timers and the wait are written by their own instructions alone, the key flags by none.
That only CALL and RET reach the stack is the spec's decision D28 (log entry 23), that Fx55 and Fx65 leave I alone its decision D10
(log entry 13), that a RET or CALL which faults leaves the stack alone D2 (log entry 3). -/
def Obligations.SpecialRegisterWriters : Prop :=
  ∀ (i : Instr) (s t : State), exec i s = .next t →
    (writesIndex i = false → t.i = s.i) ∧
    ((i ≠ .ret ∧ ∀ nnn, i ≠ .call nnn) ∨ (faultOf i s).isSome = true → t.sp = s.sp ∧ t.stack = s.stack) ∧
    ((∀ x, i ≠ .ldDtVx x) → t.dt = s.dt) ∧ ((∀ x, i ≠ .ldStVx x) → t.st = s.st) ∧
    ((∀ x, i ≠ .ldVxK x) → t.wait = s.wait) ∧ t.key = s.key

/-- R50, R58: no instruction changes a byte outside the run it stores at I; all but Fx33 and Fx55 store nothing. That one which faults
stores nothing is the spec's decision D2 (log entries 3, 10). -/
def Obligations.MemoryWriters : Prop :=
  ∀ (i : Instr) (s t : State), s.mem.wf s.font = true → exec i s = .next t →
    SameBytesOutside s.i.toNat (storedBytes i) s t ∧ ((faultOf i s).isSome = true → SameBytes s t)

/-- R153: an event that changes a display cell is RESET, an accepted LOAD, or a STEP that executes CLS or DRW. That a rejected LOAD
changes no cell is the spec's decision D21 (log entry 24), that a DRW which faults changes none D2 (log entry 3). -/
def Obligations.DisplayWriters : Prop :=
  ∀ (e : HostEvent) (s t : State), applyEvent e s = .next t → t.disp ≠ s.disp →
    isRestart e = true ∨
    ∃ r i, e = .step r ∧ s.Ready ∧ s.pc.toNat ≤ 0xFFE ∧ decode (s.wordAt s.pc.toNat) = .ok i ∧
      (i = .cls ∨ ∃ x y n, i = .drw x y n)

/-- R6, R52: FONT is a parameter: no step, of whatever host event or instruction, changes it, though a program may overwrite the bytes
it was copied to. That it is held in State, with the default bytes in `State.reset`, is log entry 9. -/
def Obligations.FontParameterNeverChanges : Prop :=
  ∀ s t : State, step s = .next t → t.font = s.font

/-- R42: the invariant holds at reset, whatever FONT is. The reset values beyond the source's are D3 to D6 (log entries 4 to 8). -/
def Obligations.InvariantAtReset : Prop := Inv State.reset ∧ ∀ font : Font, Inv (State.resetWith font)

/-- R24, R42, R189: every step, of whatever host event or instruction, keeps the invariant: canonical memory, PC at most 0x10FE, return
addresses in 0x002..0x1000, a pending wait only at its own Fx0A while RUNNING, and a fault record that describes the fault. That PC is
unmasked is the spec's decision D8 (log entry 11), that it stands at the Fx0A during the wait D17 (log entry 20), that it stands at the
faulting instruction D2 (log entry 3), the record's codes and FADDR D3 (log entry 4), what events do while HALTED D4 (log entry 5). -/
def Obligations.InvariantKeptByEveryStep : Prop :=
  ∀ s t : State, Inv s → step s = .next t → Inv t

end
end

