-- ==== Sys2Proof/Laws/Decode.lean ====
section
/-! SUPPORT. The fields of a word, and of the word of each format, as numbers. -/

namespace Sys2Proof

theorem fieldOp_eq (w : Word) : fieldOp w = w.toNat / 0x1000 := by
  have := w.isLt
  simp only [fieldOp, BitVec.extractLsb'_toNat, Nat.shiftRight_eq_div_pow]
  omega

theorem fieldX_val (w : Word) : (fieldX w).val = w.toNat / 0x100 % 16 := by
  simp [fieldX, Nat.shiftRight_eq_div_pow]

theorem fieldY_val (w : Word) : (fieldY w).val = w.toNat / 0x10 % 16 := by
  simp [fieldY, Nat.shiftRight_eq_div_pow]

theorem fieldN_val (w : Word) : (fieldN w).val = w.toNat % 16 := by
  simp [fieldN]

theorem fieldNnn_toNat (w : Word) : (fieldNnn w).toNat = w.toNat % 0x1000 := by
  simp [fieldNnn, BitVec.extractLsb'_toNat]

theorem fieldKk_toNat (w : Word) : (fieldKk w).toNat = w.toNat % 0x100 := by
  simp [fieldKk, BitVec.extractLsb'_toNat]

theorem formatA_toNat (op : Nat) (nnn : BitVec 12) (h : op < 16) : (formatA op nnn).toNat = op * 0x1000 + nnn.toNat := by
  have := nnn.isLt
  simp only [formatA, BitVec.toNat_ofNat]
  omega

theorem formatXK_toNat (op : Nat) (x : Reg) (kk : Byte) (h : op < 16) :
    (formatXK op x kk).toNat = op * 0x1000 + x.val * 0x100 + kk.toNat := by
  have := x.isLt
  have := kk.isLt
  simp only [formatXK, BitVec.toNat_ofNat]
  omega

theorem formatXYN_toNat (op : Nat) (x y : Reg) (n : Nat) (h : op < 16) (hn : n < 16) :
    (formatXYN op x y n).toNat = op * 0x1000 + x.val * 0x100 + y.val * 0x10 + n := by
  have := x.isLt
  have := y.isLt
  simp only [formatXYN, BitVec.toNat_ofNat]
  omega

theorem formatX_toNat (op : Nat) (x : Reg) (sub : Nat) (h : op < 16) (hs : sub < 256) :
    (formatX op x sub).toNat = op * 0x1000 + x.val * 0x100 + sub := by
  have := x.isLt
  simp only [formatX, BitVec.toNat_ofNat]
  omega

/-- The two bytes of a word, joined again. -/
theorem wordOfBytes_hi_lo (w : Word) : wordOfBytes (hiByte w) (loByte w) = w := by
  apply BitVec.eq_of_getLsbD_eq
  intro k hk
  simp only [wordOfBytes, hiByte, loByte, BitVec.getLsbD_append, BitVec.getLsbD_extractLsb']
  by_cases h : k < 8
  · simp [h]
  · simp only [h, if_false, show k - 8 < 8 by omega, decide_true, Bool.true_and, show 8 + (k - 8) = k by omega]

/-- A word is the sum of its bytes by weight. -/
theorem wordOfBytes_toNat (hi lo : Byte) : (wordOfBytes hi lo).toNat = hi.toNat * 0x100 + lo.toNat := by
  have := lo.isLt
  have e : (wordOfBytes hi lo).toNat = hi.toNat <<< 8 ||| lo.toNat := by
    simp only [wordOfBytes, BitVec.toNat_append]
  rw [e, ← Nat.shiftLeft_add_eq_or_of_lt this, Nat.shiftLeft_eq]

end Sys2Proof
end

