-- ==== Sys2Proof/Laws/Display.lean ====
section
/-! SUPPORT. The laws of the display cells. -/

namespace Sys2Proof.Machine

/-- A cell after one cell is toggled. -/
theorem Display.cell_toggle (d : Display) (x cx : Fin 64) (y cy : Fin 32) :
    (d.toggle x y).cell cx cy = if cx = x ∧ cy = y then !d.cell cx cy else d.cell cx cy := by
  simp only [Display.cell, Display.toggle, Vector.getElem_set]
  by_cases hy : y.val = cy.val
  · have hy' : cy = y := Fin.ext hy.symm
    subst hy'
    simp only [if_true, Vector.getElem_set, and_true]
    by_cases hx : x.val = cx.val
    · have hx' : cx = x := Fin.ext hx.symm
      subst hx'
      simp
    · simp [hx, show ¬ cx = x from fun e => hx (by rw [e])]
  · simp [hy, show ¬ cy = y from fun e => hy (by rw [e])]

/-- R150: every cell of a cleared display is 0. -/
@[simp] theorem Display.cell_clear (cx : Fin 64) (cy : Fin 32) : Display.clear.cell cx cy = false := by
  simp [Display.cell, Display.clear]

/-- Displays with equal cells are equal. -/
theorem Display.ext_cells (d e : Display) (h : ∀ cx cy, d.cell cx cy = e.cell cx cy) : d = e := by
  apply Vector.ext
  intro y hy
  apply Vector.ext
  intro x hx
  exact h ⟨x, hx⟩ ⟨y, hy⟩

/-- One sprite bit: the cell it falls on is toggled, the others stay. -/
theorem drawPixel_cell (px py : Nat) (a : Display × Bool) (cx : Fin 64) (cy : Fin 32) :
    (drawPixel px py a).1.cell cx cy =
      if px % 64 = cx.val ∧ py % 32 = cy.val then !a.1.cell cx cy else a.1.cell cx cy := by
  simp only [drawPixel, Display.cell_toggle, Fin.ext_iff, eq_comm]

/-- One sprite bit: the collision is the one so far or the old value of the cell it falls on. -/
theorem drawPixel_collision (px py : Nat) (a : Display × Bool) :
    (drawPixel px py a).2 =
      (a.2 || a.1.cell ⟨px % 64, Nat.mod_lt _ (by decide)⟩ ⟨py % 32, Nat.mod_lt _ (by decide)⟩) := rfl

end Sys2Proof.Machine
end

