-- ==== Sys2Proof/Laws/Memory.lean ====
section
/-! SUPPORT. The laws of memory: read after write, frames, and that every operation keeps the canonical form. -/

namespace Sys2Proof.Machine

variable {font : Font}

theorem Memory.read_consCell (a : Nat) (b : Byte) (m : Memory) (q : Nat) (hm : q = a → m.read font q = unlisted font q) :
    (Memory.consCell font a b m).read font q = if q = a then b else m.read font q := by
  unfold Memory.consCell
  split
  · split <;> simp_all
  · simp only [Memory.read, eq_comm]

/-- A list that starts above an address reads there as unlisted. -/
theorem Memory.read_below (m : Memory) (lo q : Nat) (h : Memory.canonicalFrom font lo m = true) (hq : q < lo) :
    m.read font q = unlisted font q := by
  induction m generalizing lo with
  | nil => rfl
  | cons c rest ih =>
    obtain ⟨k, b⟩ := c
    simp only [Memory.canonicalFrom, Bool.and_eq_true, decide_eq_true_eq] at h
    have hk : k ≠ q := by omega
    simp only [Memory.read, hk, if_false]
    exact ih (k + 1) h.2 (by omega)

theorem Memory.read_above (m : Memory) (lo q : Nat) (h : Memory.canonicalFrom font lo m = true) (hq : 0xFFF < q) :
    m.read font q = unlisted font q := by
  induction m generalizing lo with
  | nil => rfl
  | cons c rest ih =>
    obtain ⟨k, b⟩ := c
    simp only [Memory.canonicalFrom, Bool.and_eq_true, decide_eq_true_eq, Config.memSize] at h
    have hk : k ≠ q := by omega
    simp only [Memory.read, hk, if_false]
    exact ih (k + 1) h.2

/-- A byte after a store of a byte: the stored one at that address, as before elsewhere. -/
theorem Memory.read_write (m : Memory) (lo a q : Nat) (b : Byte) (h : Memory.canonicalFrom font lo m = true) :
    (m.write font a b).read font q = if q = a then b else m.read font q := by
  induction m generalizing lo with
  | nil => exact Memory.read_consCell a b [] q fun _ => rfl
  | cons c rest ih =>
    obtain ⟨k, c⟩ := c
    have hrest : Memory.canonicalFrom font (k + 1) rest = true := by
      simp only [Memory.canonicalFrom, Bool.and_eq_true] at h; exact h.2
    simp only [Memory.write]
    split
    · rename_i hak
      apply Memory.read_consCell
      intro hq
      simp only [Memory.read, show k ≠ q by omega, if_false]
      exact Memory.read_below rest (k + 1) q hrest (by omega)
    · split
      · rename_i hak
        rw [Memory.read_consCell a b rest q (fun hq => Memory.read_below rest (k + 1) q hrest (by omega))]
        by_cases hq : q = a
        · simp [hq]
        · simp only [hq, if_false, Memory.read, show k ≠ q by omega]
      · rename_i h1 h2
        simp only [Memory.read]
        by_cases hk : k = q
        · simp only [hk, if_true, show ¬ q = a by omega, if_false]
        · simp only [hk, if_false]
          exact ih (k + 1) hrest

theorem Memory.canonicalFrom_mono (m : Memory) (lo lo' : Nat) (hl : lo' ≤ lo) (h : Memory.canonicalFrom font lo m = true) :
    Memory.canonicalFrom font lo' m = true := by
  cases m with
  | nil => rfl
  | cons c rest =>
    simp only [Memory.canonicalFrom, Bool.and_eq_true, decide_eq_true_eq] at h ⊢
    exact ⟨⟨⟨by omega, h.1.1.2⟩, h.1.2⟩, h.2⟩

theorem Memory.consCell_canonical (a : Nat) (b : Byte) (m : Memory) (lo : Nat) (hlo : lo ≤ a) (ha : a < 0x1000)
    (h : Memory.canonicalFrom font (a + 1) m = true) : Memory.canonicalFrom font lo (Memory.consCell font a b m) = true := by
  unfold Memory.consCell
  split
  · exact Memory.canonicalFrom_mono m (a + 1) lo (by omega) h
  · rename_i hb
    simp only [Memory.canonicalFrom, Bool.and_eq_true, decide_eq_true_eq, bne_iff_ne]
    exact ⟨⟨⟨hlo, ha⟩, hb⟩, h⟩

theorem Memory.write_canonicalFrom (m : Memory) (lo a : Nat) (b : Byte) (hlo : lo ≤ a) (ha : a < 0x1000)
    (h : Memory.canonicalFrom font lo m = true) : Memory.canonicalFrom font lo (m.write font a b) = true := by
  induction m generalizing lo with
  | nil => exact Memory.consCell_canonical a b [] lo hlo ha rfl
  | cons c rest ih =>
    obtain ⟨k, c⟩ := c
    have hh := h
    simp only [Memory.canonicalFrom, Bool.and_eq_true, decide_eq_true_eq] at hh
    simp only [Memory.write]
    split
    · rename_i hak
      apply Memory.consCell_canonical a b _ lo hlo ha
      simp only [Memory.canonicalFrom, Bool.and_eq_true, decide_eq_true_eq]
      exact ⟨⟨⟨by omega, hh.1.1.2⟩, hh.1.2⟩, hh.2⟩
    · split
      · rename_i _ hak
        subst hak
        exact Memory.consCell_canonical a b rest lo hlo ha hh.2
      · simp only [Memory.canonicalFrom, Bool.and_eq_true, decide_eq_true_eq]
        exact ⟨hh.1, ih (k + 1) (by omega) hh.2⟩

/-- Storing a byte keeps the canonical form. -/
theorem Memory.write_wf (m : Memory) (a : Nat) (b : Byte) (ha : a < 0x1000) (h : m.wf font = true) :
    (m.write font a b).wf font = true :=
  Memory.write_canonicalFrom m 0 a b (Nat.zero_le a) ha h

/-- Storing a run of bytes keeps the canonical form. -/
theorem Memory.writeRun_wf (m : Memory) (addr : Nat) (bytes : List Byte) (ha : addr + bytes.length ≤ 0x1000)
    (h : m.wf font = true) : (m.writeRun font addr bytes).wf font = true := by
  induction bytes generalizing m addr with
  | nil => exact h
  | cons b bs ih =>
    simp only [List.length_cons] at ha
    exact ih _ _ (by omega) (Memory.write_wf m addr b (by omega) h)

/-- The empty list, reset's memory, is canonical. -/
theorem Memory.nil_wf : Memory.wf font [] = true := rfl

theorem State.reset_mem_wf : State.reset.mem.wf font = true := rfl

/-- Outside the stored run every byte reads as before. -/
theorem Memory.read_writeRun_outside (m : Memory) (addr q : Nat) (bytes : List Byte)
    (ha : addr + bytes.length ≤ 0x1000) (h : m.wf font = true) (hq : q < addr ∨ addr + bytes.length ≤ q) :
    (m.writeRun font addr bytes).read font q = m.read font q := by
  induction bytes generalizing m addr with
  | nil => rfl
  | cons b bs ih =>
    simp only [List.length_cons] at ha hq
    have hw := ih (m.write font addr b) (addr + 1) (by omega) (Memory.write_wf m addr b (by omega) h) (by omega)
    rw [Memory.writeRun, hw, Memory.read_write m 0 addr q b h, if_neg (by omega)]

/-- Inside the stored run each byte reads as stored. -/
theorem Memory.read_writeRun_inside (m : Memory) (addr k : Nat) (bytes : List Byte)
    (ha : addr + bytes.length ≤ 0x1000) (h : m.wf font = true) (hk : k < bytes.length) :
    (m.writeRun font addr bytes).read font (addr + k) = bytes[k] := by
  induction bytes generalizing m addr k with
  | nil => simp at hk
  | cons b bs ih =>
    simp only [List.length_cons] at ha hk
    have hwf := Memory.write_wf m addr b (by omega) h
    cases k with
    | zero =>
      rw [Memory.writeRun, Memory.read_writeRun_outside _ (addr + 1) (addr + 0) bs (by omega) hwf (by omega),
        Memory.read_write m 0 addr _ b h]
      simp
    | succ k =>
      have := ih (m.write font addr b) (addr + 1) k (by omega) hwf (by omega)
      rw [Memory.writeRun, show addr + (k + 1) = addr + 1 + k by omega, this]
      rfl

@[simp] theorem Memory.readRun_length (m : Memory) (addr n : Nat) : (m.readRun font addr n).length = n := by
  induction n generalizing addr with
  | zero => rfl
  | succ n ih => simp [Memory.readRun, ih]

/-- The k-th byte of a run is the byte k above its address. -/
theorem Memory.readRun_getElem (m : Memory) (addr n k : Nat) (h : k < (m.readRun font addr n).length) :
    (m.readRun font addr n)[k] = m.read font (addr + k) := by
  induction n generalizing addr k with
  | zero => simp [Memory.readRun] at h
  | succ n ih =>
    cases k with
    | zero => simp [Memory.readRun]
    | succ k =>
      simp only [Memory.readRun, List.getElem_cons_succ]
      rw [ih, show addr + 1 + k = addr + (k + 1) by omega]

/-- A run read where the memories agree byte by byte. -/
theorem Memory.readRun_congr (m m' : Memory) (addr n : Nat) (h : ∀ k, k < n → m.read font (addr + k) = m'.read font (addr + k)) :
    m.readRun font addr n = m'.readRun font addr n := by
  apply List.ext_getElem (by simp)
  intro k hk hk'
  rw [Memory.readRun_getElem, Memory.readRun_getElem]
  exact h k (by simpa using hk)

theorem accessFits_iff (addr n : Nat) : accessFits addr n = true ↔ n = 0 ∨ addr + n ≤ 0x1000 := by
  simp only [accessFits, Bool.or_eq_true, beq_iff_eq, decide_eq_true_eq]
  omega

/-- Everything MemRead can answer. -/
theorem memRead_cases (m : Memory) (addr n : Nat) :
    (accessFits addr n = true ∧ memRead font m addr n = .ok (m.readRun font addr n)) ∨
    (accessFits addr n = false ∧ memRead font m addr n = .error (firstOffending addr)) := by
  unfold memRead
  cases accessFits addr n <;> simp

/-- Everything MemWrite can answer. -/
theorem memWrite_cases (m : Memory) (addr : Nat) (bytes : List Byte) :
    (accessFits addr bytes.length = true ∧ memWrite font m addr bytes = .ok (m.writeRun font addr bytes)) ∨
    (accessFits addr bytes.length = false ∧ memWrite font m addr bytes = .error (firstOffending addr)) := by
  unfold memWrite
  cases accessFits addr bytes.length <;> simp

theorem firstOffending_toNat (addr : Nat) (h : addr < 0x10000) : (firstOffending addr).toNat = max addr 0x1000 := by
  simp only [firstOffending, BitVec.toNat_ofNat]
  omega

end Sys2Proof.Machine
end

