-- ==== Sys2Proof/Laws/State.lean ====
section
/-! SUPPORT. One lemma per field per update of State, true by rfl, so that no later proof unfolds a record update. -/

namespace Sys2Proof.Machine

variable (s : State)

/-! ### `State.setReg` -/

@[simp] theorem State.setReg_v (r : Reg) (b : Byte) : (s.setReg r b).v = s.v.set r.val b := rfl
@[simp] theorem State.setReg_i (r : Reg) (b : Byte) : (s.setReg r b).i = s.i := rfl
@[simp] theorem State.setReg_pc (r : Reg) (b : Byte) : (s.setReg r b).pc = s.pc := rfl
@[simp] theorem State.setReg_sp (r : Reg) (b : Byte) : (s.setReg r b).sp = s.sp := rfl
@[simp] theorem State.setReg_stack (r : Reg) (b : Byte) : (s.setReg r b).stack = s.stack := rfl
@[simp] theorem State.setReg_dt (r : Reg) (b : Byte) : (s.setReg r b).dt = s.dt := rfl
@[simp] theorem State.setReg_st (r : Reg) (b : Byte) : (s.setReg r b).st = s.st := rfl
@[simp] theorem State.setReg_disp (r : Reg) (b : Byte) : (s.setReg r b).disp = s.disp := rfl
@[simp] theorem State.setReg_key (r : Reg) (b : Byte) : (s.setReg r b).key = s.key := rfl
@[simp] theorem State.setReg_wait (r : Reg) (b : Byte) : (s.setReg r b).wait = s.wait := rfl
@[simp] theorem State.setReg_run (r : Reg) (b : Byte) : (s.setReg r b).run = s.run := rfl
@[simp] theorem State.setReg_fcause (r : Reg) (b : Byte) : (s.setReg r b).fcause = s.fcause := rfl
@[simp] theorem State.setReg_fpc (r : Reg) (b : Byte) : (s.setReg r b).fpc = s.fpc := rfl
@[simp] theorem State.setReg_fword (r : Reg) (b : Byte) : (s.setReg r b).fword = s.fword := rfl
@[simp] theorem State.setReg_faddr (r : Reg) (b : Byte) : (s.setReg r b).faddr = s.faddr := rfl
@[simp] theorem State.setReg_mem (r : Reg) (b : Byte) : (s.setReg r b).mem = s.mem := rfl
@[simp] theorem State.setReg_font (r : Reg) (b : Byte) : (s.setReg r b).font = s.font := rfl
@[simp] theorem State.setReg_events (r : Reg) (b : Byte) : (s.setReg r b).events = s.events := rfl
@[simp] theorem State.setReg_rnd (r : Reg) (b : Byte) : (s.setReg r b).rnd = s.rnd := rfl
@[simp] theorem State.setReg_rndDraws (r : Reg) (b : Byte) : (s.setReg r b).rndDraws = s.rndDraws := rfl
@[simp] theorem State.setReg_ldError (r : Reg) (b : Byte) : (s.setReg r b).ldError = s.ldError := rfl
@[simp] theorem State.setReg_ldStream (r : Reg) (b : Byte) : (s.setReg r b).ldStream = s.ldStream := rfl

/-! ### `State.advance` -/

@[simp] theorem State.advance_v : (s.advance).v = s.v := rfl
@[simp] theorem State.advance_i : (s.advance).i = s.i := rfl
@[simp] theorem State.advance_pc : (s.advance).pc = s.npc := rfl
@[simp] theorem State.advance_sp : (s.advance).sp = s.sp := rfl
@[simp] theorem State.advance_stack : (s.advance).stack = s.stack := rfl
@[simp] theorem State.advance_dt : (s.advance).dt = s.dt := rfl
@[simp] theorem State.advance_st : (s.advance).st = s.st := rfl
@[simp] theorem State.advance_disp : (s.advance).disp = s.disp := rfl
@[simp] theorem State.advance_key : (s.advance).key = s.key := rfl
@[simp] theorem State.advance_wait : (s.advance).wait = s.wait := rfl
@[simp] theorem State.advance_run : (s.advance).run = s.run := rfl
@[simp] theorem State.advance_fcause : (s.advance).fcause = s.fcause := rfl
@[simp] theorem State.advance_fpc : (s.advance).fpc = s.fpc := rfl
@[simp] theorem State.advance_fword : (s.advance).fword = s.fword := rfl
@[simp] theorem State.advance_faddr : (s.advance).faddr = s.faddr := rfl
@[simp] theorem State.advance_mem : (s.advance).mem = s.mem := rfl
@[simp] theorem State.advance_font : (s.advance).font = s.font := rfl
@[simp] theorem State.advance_events : (s.advance).events = s.events := rfl
@[simp] theorem State.advance_rnd : (s.advance).rnd = s.rnd := rfl
@[simp] theorem State.advance_rndDraws : (s.advance).rndDraws = s.rndDraws := rfl
@[simp] theorem State.advance_ldError : (s.advance).ldError = s.ldError := rfl
@[simp] theorem State.advance_ldStream : (s.advance).ldStream = s.ldStream := rfl

/-! ### `State.skipIf` -/

@[simp] theorem State.skipIf_v (c : Bool) : (s.skipIf c).v = s.v := rfl
@[simp] theorem State.skipIf_i (c : Bool) : (s.skipIf c).i = s.i := rfl
@[simp] theorem State.skipIf_pc (c : Bool) : (s.skipIf c).pc = if c then s.npc + 2 else s.npc := rfl
@[simp] theorem State.skipIf_sp (c : Bool) : (s.skipIf c).sp = s.sp := rfl
@[simp] theorem State.skipIf_stack (c : Bool) : (s.skipIf c).stack = s.stack := rfl
@[simp] theorem State.skipIf_dt (c : Bool) : (s.skipIf c).dt = s.dt := rfl
@[simp] theorem State.skipIf_st (c : Bool) : (s.skipIf c).st = s.st := rfl
@[simp] theorem State.skipIf_disp (c : Bool) : (s.skipIf c).disp = s.disp := rfl
@[simp] theorem State.skipIf_key (c : Bool) : (s.skipIf c).key = s.key := rfl
@[simp] theorem State.skipIf_wait (c : Bool) : (s.skipIf c).wait = s.wait := rfl
@[simp] theorem State.skipIf_run (c : Bool) : (s.skipIf c).run = s.run := rfl
@[simp] theorem State.skipIf_fcause (c : Bool) : (s.skipIf c).fcause = s.fcause := rfl
@[simp] theorem State.skipIf_fpc (c : Bool) : (s.skipIf c).fpc = s.fpc := rfl
@[simp] theorem State.skipIf_fword (c : Bool) : (s.skipIf c).fword = s.fword := rfl
@[simp] theorem State.skipIf_faddr (c : Bool) : (s.skipIf c).faddr = s.faddr := rfl
@[simp] theorem State.skipIf_mem (c : Bool) : (s.skipIf c).mem = s.mem := rfl
@[simp] theorem State.skipIf_font (c : Bool) : (s.skipIf c).font = s.font := rfl
@[simp] theorem State.skipIf_events (c : Bool) : (s.skipIf c).events = s.events := rfl
@[simp] theorem State.skipIf_rnd (c : Bool) : (s.skipIf c).rnd = s.rnd := rfl
@[simp] theorem State.skipIf_rndDraws (c : Bool) : (s.skipIf c).rndDraws = s.rndDraws := rfl
@[simp] theorem State.skipIf_ldError (c : Bool) : (s.skipIf c).ldError = s.ldError := rfl
@[simp] theorem State.skipIf_ldStream (c : Bool) : (s.skipIf c).ldStream = s.ldStream := rfl

/-! ### `State.haltWith` -/

@[simp] theorem State.haltWith_v (f : Fault) (w : Word) (a : Addr) : (s.haltWith f w a).v = s.v := rfl
@[simp] theorem State.haltWith_i (f : Fault) (w : Word) (a : Addr) : (s.haltWith f w a).i = s.i := rfl
@[simp] theorem State.haltWith_pc (f : Fault) (w : Word) (a : Addr) : (s.haltWith f w a).pc = s.pc := rfl
@[simp] theorem State.haltWith_sp (f : Fault) (w : Word) (a : Addr) : (s.haltWith f w a).sp = s.sp := rfl
@[simp] theorem State.haltWith_stack (f : Fault) (w : Word) (a : Addr) : (s.haltWith f w a).stack = s.stack := rfl
@[simp] theorem State.haltWith_dt (f : Fault) (w : Word) (a : Addr) : (s.haltWith f w a).dt = s.dt := rfl
@[simp] theorem State.haltWith_st (f : Fault) (w : Word) (a : Addr) : (s.haltWith f w a).st = s.st := rfl
@[simp] theorem State.haltWith_disp (f : Fault) (w : Word) (a : Addr) : (s.haltWith f w a).disp = s.disp := rfl
@[simp] theorem State.haltWith_key (f : Fault) (w : Word) (a : Addr) : (s.haltWith f w a).key = s.key := rfl
@[simp] theorem State.haltWith_wait (f : Fault) (w : Word) (a : Addr) : (s.haltWith f w a).wait = s.wait := rfl
@[simp] theorem State.haltWith_run (f : Fault) (w : Word) (a : Addr) : (s.haltWith f w a).run = .halted := rfl
@[simp] theorem State.haltWith_fcause (f : Fault) (w : Word) (a : Addr) : (s.haltWith f w a).fcause = f.code := rfl
@[simp] theorem State.haltWith_fpc (f : Fault) (w : Word) (a : Addr) : (s.haltWith f w a).fpc = s.pc := rfl
@[simp] theorem State.haltWith_fword (f : Fault) (w : Word) (a : Addr) : (s.haltWith f w a).fword = w := rfl
@[simp] theorem State.haltWith_faddr (f : Fault) (w : Word) (a : Addr) : (s.haltWith f w a).faddr = a := rfl
@[simp] theorem State.haltWith_mem (f : Fault) (w : Word) (a : Addr) : (s.haltWith f w a).mem = s.mem := rfl
@[simp] theorem State.haltWith_font (f : Fault) (w : Word) (a : Addr) : (s.haltWith f w a).font = s.font := rfl
@[simp] theorem State.haltWith_events (f : Fault) (w : Word) (a : Addr) : (s.haltWith f w a).events = s.events := rfl
@[simp] theorem State.haltWith_rnd (f : Fault) (w : Word) (a : Addr) : (s.haltWith f w a).rnd = s.rnd := rfl
@[simp] theorem State.haltWith_rndDraws (f : Fault) (w : Word) (a : Addr) : (s.haltWith f w a).rndDraws = s.rndDraws := rfl
@[simp] theorem State.haltWith_ldError (f : Fault) (w : Word) (a : Addr) : (s.haltWith f w a).ldError = s.ldError := rfl
@[simp] theorem State.haltWith_ldStream (f : Fault) (w : Word) (a : Addr) : (s.haltWith f w a).ldStream = s.ldStream := rfl

/-! ### `State.drawRandom` -/

@[simp] theorem State.drawRandom_v : (s.drawRandom).v = s.v := rfl
@[simp] theorem State.drawRandom_i : (s.drawRandom).i = s.i := rfl
@[simp] theorem State.drawRandom_pc : (s.drawRandom).pc = s.pc := rfl
@[simp] theorem State.drawRandom_sp : (s.drawRandom).sp = s.sp := rfl
@[simp] theorem State.drawRandom_stack : (s.drawRandom).stack = s.stack := rfl
@[simp] theorem State.drawRandom_dt : (s.drawRandom).dt = s.dt := rfl
@[simp] theorem State.drawRandom_st : (s.drawRandom).st = s.st := rfl
@[simp] theorem State.drawRandom_disp : (s.drawRandom).disp = s.disp := rfl
@[simp] theorem State.drawRandom_key : (s.drawRandom).key = s.key := rfl
@[simp] theorem State.drawRandom_wait : (s.drawRandom).wait = s.wait := rfl
@[simp] theorem State.drawRandom_run : (s.drawRandom).run = s.run := rfl
@[simp] theorem State.drawRandom_fcause : (s.drawRandom).fcause = s.fcause := rfl
@[simp] theorem State.drawRandom_fpc : (s.drawRandom).fpc = s.fpc := rfl
@[simp] theorem State.drawRandom_fword : (s.drawRandom).fword = s.fword := rfl
@[simp] theorem State.drawRandom_faddr : (s.drawRandom).faddr = s.faddr := rfl
@[simp] theorem State.drawRandom_mem : (s.drawRandom).mem = s.mem := rfl
@[simp] theorem State.drawRandom_font : (s.drawRandom).font = s.font := rfl
@[simp] theorem State.drawRandom_events : (s.drawRandom).events = s.events := rfl
@[simp] theorem State.drawRandom_rnd : (s.drawRandom).rnd = none := rfl
@[simp] theorem State.drawRandom_rndDraws : (s.drawRandom).rndDraws = s.rndDraws + 1 := rfl
@[simp] theorem State.drawRandom_ldError : (s.drawRandom).ldError = s.ldError := rfl
@[simp] theorem State.drawRandom_ldStream : (s.drawRandom).ldStream = s.ldStream := rfl

/-! ### `State.clockCycle` -/

@[simp] theorem State.clockCycle_v (p : PortIn) : (s.clockCycle p).v = s.v := rfl
@[simp] theorem State.clockCycle_i (p : PortIn) : (s.clockCycle p).i = s.i := rfl
@[simp] theorem State.clockCycle_pc (p : PortIn) : (s.clockCycle p).pc = s.pc := rfl
@[simp] theorem State.clockCycle_sp (p : PortIn) : (s.clockCycle p).sp = s.sp := rfl
@[simp] theorem State.clockCycle_stack (p : PortIn) : (s.clockCycle p).stack = s.stack := rfl
@[simp] theorem State.clockCycle_dt (p : PortIn) : (s.clockCycle p).dt = s.dt := rfl
@[simp] theorem State.clockCycle_st (p : PortIn) : (s.clockCycle p).st = s.st := rfl
@[simp] theorem State.clockCycle_disp (p : PortIn) : (s.clockCycle p).disp = s.disp := rfl
@[simp] theorem State.clockCycle_key (p : PortIn) : (s.clockCycle p).key = s.key := rfl
@[simp] theorem State.clockCycle_wait (p : PortIn) : (s.clockCycle p).wait = s.wait := rfl
@[simp] theorem State.clockCycle_run (p : PortIn) : (s.clockCycle p).run = s.run := rfl
@[simp] theorem State.clockCycle_fcause (p : PortIn) : (s.clockCycle p).fcause = s.fcause := rfl
@[simp] theorem State.clockCycle_fpc (p : PortIn) : (s.clockCycle p).fpc = s.fpc := rfl
@[simp] theorem State.clockCycle_fword (p : PortIn) : (s.clockCycle p).fword = s.fword := rfl
@[simp] theorem State.clockCycle_faddr (p : PortIn) : (s.clockCycle p).faddr = s.faddr := rfl
@[simp] theorem State.clockCycle_mem (p : PortIn) : (s.clockCycle p).mem = s.mem := rfl
@[simp] theorem State.clockCycle_font (p : PortIn) : (s.clockCycle p).font = s.font := rfl
@[simp] theorem State.clockCycle_rnd (p : PortIn) : (s.clockCycle p).rnd = s.rnd := rfl
@[simp] theorem State.clockCycle_rndDraws (p : PortIn) : (s.clockCycle p).rndDraws = s.rndDraws := rfl
@[simp] theorem State.clockCycle_ldError (p : PortIn) : (s.clockCycle p).ldError = s.ldError := rfl
@[simp] theorem State.clockCycle_events (p : PortIn) : (s.clockCycle p).events = s.events ++ s.cycleEvents p := rfl
@[simp] theorem State.clockCycle_ldStream (p : PortIn) : (s.clockCycle p).ldStream = s.nextStream p := rfl

@[simp] theorem State.clockCycles_nil : s.clockCycles [] = s := rfl
@[simp] theorem State.clockCycles_cons (p : PortIn) (ps : List PortIn) :
    s.clockCycles (p :: ps) = (s.clockCycle p).clockCycles ps := rfl

/-! ### The fields of a reset state that no event may choose, and the gated fields of `placeWord` -/

@[simp] theorem State.resetWith_mem (font : Font) : (State.resetWith font).mem = [] := rfl
@[simp] theorem State.resetWith_font (font : Font) : (State.resetWith font).font = font := rfl
@[simp] theorem resetEvent_mem : (resetEvent s).mem = [] := rfl
@[simp] theorem resetEvent_font : (resetEvent s).font = s.font := rfl

@[simp] theorem placeWord_events (w : Word) : (placeWord s w).events = [] := rfl
@[simp] theorem placeWord_run (w : Word) : (placeWord s w).run = .running := rfl
@[simp] theorem placeWord_wait (w : Word) : (placeWord s w).wait = none := rfl
@[simp] theorem placeWord_font (w : Word) : (placeWord s w).font = s.font := rfl
@[simp] theorem placeWord_pc (w : Word) : (placeWord s w).pc = fetchablePc s := rfl

/-! ### Registers through the updates -/

@[simp] theorem State.reg_advance (r : Reg) : s.advance.reg r = s.reg r := rfl
@[simp] theorem State.reg_skipIf (c : Bool) (r : Reg) : (s.skipIf c).reg r = s.reg r := rfl
@[simp] theorem State.reg_haltWith (f : Fault) (w : Word) (a : Addr) (r : Reg) : (s.haltWith f w a).reg r = s.reg r := rfl
@[simp] theorem State.reg_drawRandom (r : Reg) : s.drawRandom.reg r = s.reg r := rfl
@[simp] theorem State.byteAt_setReg (r : Reg) (b : Byte) (a : Nat) : (s.setReg r b).byteAt a = s.byteAt a := rfl
@[simp] theorem State.byteAt_advance (a : Nat) : s.advance.byteAt a = s.byteAt a := rfl
@[simp] theorem State.byteAt_skipIf (c : Bool) (a : Nat) : (s.skipIf c).byteAt a = s.byteAt a := rfl
@[simp] theorem State.byteAt_drawRandom (a : Nat) : s.drawRandom.byteAt a = s.byteAt a := rfl

/-- Writing a register and reading it back. -/
@[simp] theorem State.reg_setReg_same (r : Reg) (b : Byte) : (s.setReg r b).reg r = b := by
  simp [State.reg, State.setReg]

/-- Writing a register leaves the others. -/
theorem State.reg_setReg_other (r q : Reg) (b : Byte) (h : q ≠ r) : (s.setReg r b).reg q = s.reg q := by
  have hv : r.val ≠ q.val := fun e => h (Fin.ext e.symm)
  simp [State.reg, State.setReg, Vector.getElem_set_ne, hv]

/-- A register after a register write. -/
theorem State.reg_setReg (r q : Reg) (b : Byte) : (s.setReg r b).reg q = if q = r then b else s.reg q := by
  by_cases h : q = r
  · subst h; simp
  · simp [h, State.reg_setReg_other]

/-- R133: after the flag and the result are written, with the result on top. -/
theorem State.reg_writeFlagged (x q : Reg) (f : Bool) (r : Byte) :
    (s.writeFlagged x f r).reg q = if q = x then r else if q = vf then flagByte f else s.reg q := by
  simp only [State.writeFlagged, State.reg_advance, State.reg_setReg]

/-- R133: a flag-producing instruction changes V and PC, nothing else. -/
theorem State.writeFlagged_frame (x : Reg) (f : Bool) (r : Byte) :
    s.writeFlagged x f r =
      { s with v := (s.v.set vf.val (flagByte f)).set x.val r, pc := s.npc } := rfl

end Sys2Proof.Machine
end

