-- ==== Sys2Proof/Laws/Ops.lean ====
section
/-! SUPPORT. One lemma per shared operation that says everything it can do. -/

namespace Sys2Proof.Machine

/-! ### Memory instructions -/

/-- R56, R174: an instruction that reads at I goes on with the bytes there, or takes AddressOutOfRange. -/
theorem loadThen_cases (s : State) (i : Instr) (n : Nat) (k : List Byte → State) :
    (accessFits s.i.toNat n = true ∧ loadThen s i n k = .next (k (s.mem.readRun s.font s.i.toNat n))) ∨
    (accessFits s.i.toNat n = false ∧
      loadThen s i n k = .next (s.haltWith .addressOutOfRange (encode i) (firstOffending s.i.toNat))) := by
  obtain ⟨h, e⟩ | ⟨h, e⟩ := memRead_cases (font := s.font) s.mem s.i.toNat n
  · exact .inl ⟨h, by simp only [loadThen, e]⟩
  · exact .inr ⟨h, by simp only [loadThen, e, raise]⟩

/-- R57, R174: an instruction that stores at I stores the whole run, or takes AddressOutOfRange and stores nothing. -/
theorem storeThenAdvance_cases (s : State) (i : Instr) (bytes : List Byte) :
    (accessFits s.i.toNat bytes.length = true ∧
      storeThenAdvance s i bytes = .next { s with mem := s.mem.writeRun s.font s.i.toNat bytes, pc := s.npc }) ∨
    (accessFits s.i.toNat bytes.length = false ∧
      storeThenAdvance s i bytes =
        .next (s.haltWith .addressOutOfRange (encode i) (firstOffending s.i.toNat))) := by
  obtain ⟨h, e⟩ | ⟨h, e⟩ := memWrite_cases (font := s.font) s.mem s.i.toNat bytes
  · exact .inl ⟨h, by simp only [storeThenAdvance, e]; rfl⟩
  · exact .inr ⟨h, by simp only [storeThenAdvance, e, raise]⟩

/-- R54, R91: a fetch gives the big-endian word at PC, or the first offending address. -/
theorem fetch_cases (s : State) :
    (s.pc.toNat ≤ 0xFFE ∧ fetch s = .ok (wordOfBytes (s.byteAt s.pc.toNat) (s.byteAt (s.pc.toNat + 1)))) ∨
    (0xFFE < s.pc.toNat ∧ fetch s = .error (firstOffending s.pc.toNat)) := by
  obtain ⟨h, e⟩ | ⟨h, e⟩ := memRead_cases (font := s.font) s.mem s.pc.toNat 2
  · rw [accessFits_iff] at h
    exact .inl ⟨by omega, by simp only [fetch, e]; rfl⟩
  · refine .inr ⟨?_, by simp only [fetch, e]⟩
    by_contra hc
    rw [(accessFits_iff s.pc.toNat 2).2 (by omega)] at h
    cases h

/-- The registers after a block is written from V[0] up. -/
theorem writeRegs_getElem (bytes : List Byte) (k : Nat) (v : Vector Byte 16) (q : Nat) (hq : q < 16) :
    (writeRegs k bytes v)[q] = if h : k ≤ q ∧ q < k + bytes.length then bytes[q - k] else v[q] := by
  induction bytes generalizing k v with
  | nil => simp [writeRegs]
  | cons b bs ih =>
    rw [writeRegs, ih, Vector.getElem_setIfInBounds]
    simp only [List.length_cons]
    by_cases h1 : q < k
    · rw [dif_neg (by omega), dif_neg (by omega), if_neg (by omega)]
    · by_cases h2 : k = q
      · subst h2
        rw [dif_neg (by omega), if_pos rfl, dif_pos (by omega)]
        simp
      · by_cases h3 : q < k + 1 + bs.length
        · rw [dif_pos (by omega), dif_pos (by omega), List.getElem_cons, dif_neg (by omega)]
          simp only [show q - (k + 1) = q - k - 1 by omega]
        · rw [dif_neg (by omega), dif_neg (by omega), if_neg h2]

@[simp] theorem regBlock_length (s : State) (x : Reg) : (regBlock s x).length = x.val + 1 := by
  have := x.isLt
  simp [regBlock]

/-- R144: byte k of the block is V[k]. -/
theorem regBlock_getElem (s : State) (x : Reg) (k : Nat) (h : k < (regBlock s x).length) :
    (regBlock s x)[k] = s.reg ⟨k, by have := x.isLt; simp at h; omega⟩ := by
  simp [regBlock, State.reg]

/-! ### The call stack -/

/-- R102: a push on a stack that is not full. -/
theorem State.push_some (s : State) (a : Addr) (h : s.sp.val < 16) :
    s.push a = some { s with stack := s.stack.set s.sp.val a, sp := ⟨s.sp.val + 1, by omega⟩ } := by
  simp only [State.push, h, dif_pos]

/-- R102: a push on a full stack. -/
theorem State.push_none (s : State) (a : Addr) (h : s.sp.val = 16) : s.push a = none := by
  simp only [State.push, h, Nat.lt_irrefl, dif_neg, not_false_eq_true]

/-- R100: a pop from a stack that is not empty. -/
theorem State.pop_some (s : State) (h : 0 < s.sp.val) :
    s.pop = some (s.stack[s.sp.val - 1]'(by omega), { s with sp := ⟨s.sp.val - 1, by omega⟩ }) := by
  simp only [State.pop, h, dif_pos]

/-- R100: a pop from an empty stack. -/
theorem State.pop_none (s : State) (h : s.sp.val = 0) : s.pop = none := by
  simp only [State.pop, h, Nat.lt_irrefl, dif_neg, not_false_eq_true]

/-! ### The events -/

/-- R90 to R94: everything a STEP can do. -/
theorem stepEvent_cases (s : State) :
    (s.run = .halted ∧ stepEvent s = .next s) ∨
    (s.run = .running ∧ (∃ x, s.wait = some x) ∧ stepEvent s = .next s) ∨
    (s.Ready ∧ 0xFFE < s.pc.toNat ∧
      stepEvent s = .next (s.haltWith .addressOutOfRange 0 (firstOffending s.pc.toNat))) ∨
    (s.Ready ∧ s.pc.toNat ≤ 0xFFE ∧ ∃ r, decode (wordOfBytes (s.byteAt s.pc.toNat) (s.byteAt (s.pc.toNat + 1))) = .error r ∧
      stepEvent s = .next (s.haltWith .decodeError (wordOfBytes (s.byteAt s.pc.toNat) (s.byteAt (s.pc.toNat + 1))) 0)) ∨
    (s.Ready ∧ s.pc.toNat ≤ 0xFFE ∧ ∃ i, decode (wordOfBytes (s.byteAt s.pc.toNat) (s.byteAt (s.pc.toNat + 1))) = .ok i ∧
      stepEvent s = exec i s) := by
  cases hr : s.run with
  | halted => exact .inl ⟨rfl, by simp only [stepEvent, hr]⟩
  | running =>
    cases hw : s.wait with
    | some x => exact .inr (.inl ⟨rfl, ⟨x, rfl⟩, by simp only [stepEvent, hr, hw]⟩)
    | none =>
      refine .inr (.inr ?_)
      obtain ⟨h, e⟩ | ⟨h, e⟩ := fetch_cases s
      · refine .inr ?_
        cases hd : decode (wordOfBytes (s.byteAt s.pc.toNat) (s.byteAt (s.pc.toNat + 1))) with
        | error r => exact .inl ⟨⟨hr, hw⟩, h, r, rfl, by simp only [stepEvent, hr, hw, e, hd, raise]⟩
        | ok i => exact .inr ⟨⟨hr, hw⟩, h, i, rfl, by simp only [stepEvent, hr, hw, e, hd]⟩
      · exact .inl ⟨⟨hr, hw⟩, h, by simp only [stepEvent, hr, hw, e, raise]⟩

/-- R183, R184: everything a KEY event can do. -/
theorem keyEvent_cases (s : State) (code : Fin 16) (down : Bool) :
    (∃ x, s.run = .running ∧ s.wait = some x ∧ isEdge s code down = true ∧
      keyEvent code down s =
        { s with key := s.key.set code.val down, v := s.v.set x.val (codeByte code), wait := none, pc := s.npc }) ∨
    ((s.run = .halted ∨ s.wait = none ∨ isEdge s code down = false) ∧
      keyEvent code down s = { s with key := s.key.set code.val down }) := by
  cases hr : s.run <;> cases hw : s.wait <;> cases he : isEdge s code down
  case running.some.true x => exact .inl ⟨x, rfl, rfl, rfl, by simp only [keyEvent, hr, hw, he]; rfl⟩
  all_goals exact .inr ⟨by simp, by simp only [keyEvent, hr, hw, he]⟩

/-- R201: everything a LOAD event can do. -/
theorem loadEvent_cases (image : List Byte) (s : State) :
    (imageFits image = true ∧
      loadEvent image s = { resetEvent s with mem := (resetEvent s).mem.writeRun s.font Config.progBase image }) ∨
    (imageFits image = false ∧ loadEvent image s = { s with ldError := true }) := by
  cases h : imageFits image
  · exact .inr ⟨rfl, by simp only [loadEvent, h, Bool.false_eq_true, if_false]⟩
  · exact .inl ⟨rfl, by simp only [loadEvent, h, if_true]⟩

/-! ### The ports -/

/-- R39: everything a clock cycle can do. -/
theorem State.clockCycle_cases (s : State) (p : PortIn) :
    (p.reset = true ∧ s.clockCycle p = { s with events := s.events ++ [.reset], ldStream := [] }) ∨
    (p.reset = false ∧ p.completesLoad = true ∧
      s.clockCycle p = { s with events := s.events ++ [.load (s.ldStream ++ [p.ldData])], ldStream := [] }) ∨
    (p.reset = false ∧ p.completesLoad = false ∧
      s.clockCycle p = { s with events := s.events ++ p.strobes, ldStream := s.ldStream ++ p.imageByte.toList }) := by
  cases hr : p.reset with
  | true => exact .inl ⟨rfl, by simp only [State.clockCycle, State.cycleEvents, State.nextStream, hr, if_true, Bool.true_or]⟩
  | false =>
    refine .inr ?_
    cases hc : p.completesLoad with
    | true =>
      have hv : p.ldValid = true := by
        simp only [PortIn.completesLoad, Bool.and_eq_true] at hc
        exact hc.1
      exact .inl ⟨rfl, rfl, by
        simp only [State.clockCycle, State.cycleEvents, State.nextStream, State.streamed, PortIn.imageByte, hr, hc, hv, if_true,
          Bool.false_eq_true, if_false, Bool.false_or, Option.toList]⟩
    | false =>
      exact .inr ⟨rfl, rfl, by
        simp only [State.clockCycle, State.cycleEvents, State.nextStream, State.streamed, hr, hc, Bool.false_eq_true, if_false,
          Bool.or_self]⟩

end Sys2Proof.Machine
end

