-- ==== Sys2Proof/Laws/PerInstr.lean ====
section
/-! SUPPORT. Laws made instruction by instruction: the word of every instruction has the fixed bits of its row of the opcode table
(spec/30_encoding.md rule R74), whatever its operands are. -/

namespace Sys2Proof.Laws.FixedBits

/-- The row of R74 an instruction belongs to, by its place in the table as rule R74 prints it (families 0 to 7 first). -/
def rowOf : Instr → OpRow
  | .cls => ⟨"00E0", 0x00E0, 0xFFFF⟩
  | .ret => ⟨"00EE", 0x00EE, 0xFFFF⟩
  | .jp _ => ⟨"1nnn", 0x1000, 0xF000⟩
  | .call _ => ⟨"2nnn", 0x2000, 0xF000⟩
  | .seImm _ _ => ⟨"3xkk", 0x3000, 0xF000⟩
  | .sneImm _ _ => ⟨"4xkk", 0x4000, 0xF000⟩
  | .seReg _ _ => ⟨"5xy0", 0x5000, 0xF00F⟩
  | .ldImm _ _ => ⟨"6xkk", 0x6000, 0xF000⟩
  | .addImm _ _ => ⟨"7xkk", 0x7000, 0xF000⟩
  | .ldReg _ _ => ⟨"8xy0", 0x8000, 0xF00F⟩
  | .orReg _ _ => ⟨"8xy1", 0x8001, 0xF00F⟩
  | .andReg _ _ => ⟨"8xy2", 0x8002, 0xF00F⟩
  | .xorReg _ _ => ⟨"8xy3", 0x8003, 0xF00F⟩
  | .addReg _ _ => ⟨"8xy4", 0x8004, 0xF00F⟩
  | .subReg _ _ => ⟨"8xy5", 0x8005, 0xF00F⟩
  | .shr _ _ => ⟨"8xy6", 0x8006, 0xF00F⟩
  | .subnReg _ _ => ⟨"8xy7", 0x8007, 0xF00F⟩
  | .shl _ _ => ⟨"8xyE", 0x800E, 0xF00F⟩
  | .sneReg _ _ => ⟨"9xy0", 0x9000, 0xF00F⟩
  | .ldI _ => ⟨"Annn", 0xA000, 0xF000⟩
  | .jpV0 _ => ⟨"Bnnn", 0xB000, 0xF000⟩
  | .rnd _ _ => ⟨"Cxkk", 0xC000, 0xF000⟩
  | .drw _ _ _ => ⟨"Dxyn", 0xD000, 0xF000⟩
  | .skp _ => ⟨"Ex9E", 0xE09E, 0xF0FF⟩
  | .sknp _ => ⟨"ExA1", 0xE0A1, 0xF0FF⟩
  | .ldVxDt _ => ⟨"Fx07", 0xF007, 0xF0FF⟩
  | .ldVxK _ => ⟨"Fx0A", 0xF00A, 0xF0FF⟩
  | .ldDtVx _ => ⟨"Fx15", 0xF015, 0xF0FF⟩
  | .ldStVx _ => ⟨"Fx18", 0xF018, 0xF0FF⟩
  | .addI _ => ⟨"Fx1E", 0xF01E, 0xF0FF⟩
  | .ldF _ => ⟨"Fx29", 0xF029, 0xF0FF⟩
  | .ldB _ => ⟨"Fx33", 0xF033, 0xF0FF⟩
  | .stBlock _ => ⟨"Fx55", 0xF055, 0xF0FF⟩
  | .ldBlock _ => ⟨"Fx65", 0xF065, 0xF0FF⟩

/-- The instruction's row is in the table and covers its word. -/
def Statement (i : Instr) : Prop := rowOf i ∈ opcodeTable ∧ (rowOf i).covers (encode i) = true

/-- A row's mask keeps the family nibble and the low `k` bits: 0xF000, 0xF00F and 0xF0FF are `k` = 0, 4 and 8. -/
theorem and_mask_toNat (w : Word) (k : Nat) (hk : k ≤ 12) :
    (w &&& BitVec.ofNat 16 (0xF000 + (2 ^ k - 1))).toNat = w.toNat / 0x1000 * 0x1000 + w.toNat % 2 ^ k := by
  have hw := w.isLt
  have h12 : 2 ^ k ≤ 2 ^ 12 := Nat.pow_le_pow_right (by decide) hk
  have hpos : 0 < 2 ^ k := Nat.two_pow_pos k
  have hm : (0xF000 + (2 ^ k - 1)) % 2 ^ 16 = 0xF000 + (2 ^ k - 1) := Nat.mod_eq_of_lt (by omega)
  simp only [BitVec.toNat_and, BitVec.toNat_ofNat, hm]
  have hd : (w.toNat &&& 0xF000 + (2 ^ k - 1)) / 2 ^ 12 = w.toNat / 2 ^ 12 &&& (0xF000 + (2 ^ k - 1)) / 2 ^ 12 :=
    Nat.and_div_two_pow ..
  have hr : (w.toNat &&& 0xF000 + (2 ^ k - 1)) % 2 ^ 12 = w.toNat % 2 ^ 12 &&& (0xF000 + (2 ^ k - 1)) % 2 ^ 12 :=
    Nat.and_mod_two_pow ..
  rw [show (0xF000 + (2 ^ k - 1)) / 2 ^ 12 = 2 ^ 4 - 1 by omega, Nat.and_two_pow_sub_one_eq_mod] at hd
  rw [show (0xF000 + (2 ^ k - 1)) % 2 ^ 12 = 2 ^ k - 1 by omega, Nat.and_two_pow_sub_one_eq_mod,
    Nat.mod_mod_of_dvd _ (Nat.pow_dvd_pow 2 hk)] at hr
  omega

/-- A row of mask 0xF000, 0xF00F or 0xF0FF covers a word iff its family and low bits are the row's. -/
theorem covers_iff (r : OpRow) (w : Word) (k : Nat) (hk : k ≤ 12) (hm : r.mask = BitVec.ofNat 16 (0xF000 + (2 ^ k - 1))) :
    r.covers w = true ↔ w.toNat / 0x1000 * 0x1000 + w.toNat % 2 ^ k = r.fixed.toNat := by
  rw [OpRow.covers, beq_iff_eq, hm, ← and_mask_toNat w k hk, BitVec.toNat_inj]

/-- A row of mask 0xFFFF covers its own word alone. -/
theorem covers_whole (p : String) (f w : Word) : OpRow.covers ⟨p, f, 0xFFFF⟩ w = true ↔ w = f := by
  rw [OpRow.covers, beq_iff_eq, show (0xFFFF : Word) = BitVec.allOnes 16 from rfl, BitVec.and_allOnes]

/-- Format A. -/
theorem formatA_covered (p : String) (op : Nat) (nnn : BitVec 12) (f : Word) (hop : op < 16) (hf : f.toNat = op * 0x1000) :
    OpRow.covers ⟨p, f, 0xF000⟩ (formatA op nnn) = true := by
  have := nnn.isLt
  exact (covers_iff _ _ 0 (by decide) rfl).2 (by rw [formatA_toNat op nnn hop, hf]; omega)

/-- Format XK. -/
theorem formatXK_covered (p : String) (op : Nat) (x : Reg) (kk : Byte) (f : Word) (hop : op < 16) (hf : f.toNat = op * 0x1000) :
    OpRow.covers ⟨p, f, 0xF000⟩ (formatXK op x kk) = true := by
  have := x.isLt
  have := kk.isLt
  exact (covers_iff _ _ 0 (by decide) rfl).2 (by rw [formatXK_toNat op x kk hop, hf]; omega)

/-- Format XY: the last nibble is fixed. -/
theorem formatXY_covered (p : String) (op : Nat) (x y : Reg) (n : Nat) (f : Word) (hop : op < 16) (hn : n < 16)
    (hf : f.toNat = op * 0x1000 + n) : OpRow.covers ⟨p, f, 0xF00F⟩ (formatXYN op x y n) = true := by
  have := x.isLt
  have := y.isLt
  exact (covers_iff _ _ 4 (by decide) rfl).2 (by rw [formatXYN_toNat op x y n hop hn, hf]; omega)

/-- Format XYN: the last nibble is a field. -/
theorem formatXYN_covered (p : String) (op : Nat) (x y : Reg) (n : Nat) (f : Word) (hop : op < 16) (hn : n < 16)
    (hf : f.toNat = op * 0x1000) : OpRow.covers ⟨p, f, 0xF000⟩ (formatXYN op x y n) = true := by
  have := x.isLt
  have := y.isLt
  exact (covers_iff _ _ 0 (by decide) rfl).2 (by rw [formatXYN_toNat op x y n hop hn, hf]; omega)

/-- Format X: the last byte is fixed. -/
theorem formatX_covered (p : String) (op : Nat) (x : Reg) (sub : Nat) (f : Word) (hop : op < 16) (hs : sub < 256)
    (hf : f.toNat = op * 0x1000 + sub) : OpRow.covers ⟨p, f, 0xF0FF⟩ (formatX op x sub) = true := by
  have := x.isLt
  exact (covers_iff _ _ 8 (by decide) rfl).2 (by rw [formatX_toNat op x sub hop hs, hf]; omega)

theorem cls : Statement (.cls) :=
  ⟨by rw [rowOf]; decide, by decide⟩

theorem ret : Statement (.ret) :=
  ⟨by rw [rowOf]; decide, by decide⟩

theorem jp (nnn : BitVec 12) : Statement (.jp nnn) :=
  ⟨by rw [rowOf]; decide, formatA_covered _ _ nnn _ (by decide) rfl⟩

theorem call (nnn : BitVec 12) : Statement (.call nnn) :=
  ⟨by rw [rowOf]; decide, formatA_covered _ _ nnn _ (by decide) rfl⟩

theorem seImm (x : Reg) (kk : Byte) : Statement (.seImm x kk) :=
  ⟨by rw [rowOf]; decide, formatXK_covered _ _ x kk _ (by decide) rfl⟩

theorem sneImm (x : Reg) (kk : Byte) : Statement (.sneImm x kk) :=
  ⟨by rw [rowOf]; decide, formatXK_covered _ _ x kk _ (by decide) rfl⟩

theorem seReg (x : Reg) (y : Reg) : Statement (.seReg x y) :=
  ⟨by rw [rowOf]; decide, formatXY_covered _ _ x y _ _ (by decide) (by decide) rfl⟩

theorem ldImm (x : Reg) (kk : Byte) : Statement (.ldImm x kk) :=
  ⟨by rw [rowOf]; decide, formatXK_covered _ _ x kk _ (by decide) rfl⟩

theorem addImm (x : Reg) (kk : Byte) : Statement (.addImm x kk) :=
  ⟨by rw [rowOf]; decide, formatXK_covered _ _ x kk _ (by decide) rfl⟩

theorem ldReg (x : Reg) (y : Reg) : Statement (.ldReg x y) :=
  ⟨by rw [rowOf]; decide, formatXY_covered _ _ x y _ _ (by decide) (by decide) rfl⟩

theorem orReg (x : Reg) (y : Reg) : Statement (.orReg x y) :=
  ⟨by rw [rowOf]; decide, formatXY_covered _ _ x y _ _ (by decide) (by decide) rfl⟩

theorem andReg (x : Reg) (y : Reg) : Statement (.andReg x y) :=
  ⟨by rw [rowOf]; decide, formatXY_covered _ _ x y _ _ (by decide) (by decide) rfl⟩

theorem xorReg (x : Reg) (y : Reg) : Statement (.xorReg x y) :=
  ⟨by rw [rowOf]; decide, formatXY_covered _ _ x y _ _ (by decide) (by decide) rfl⟩

theorem addReg (x : Reg) (y : Reg) : Statement (.addReg x y) :=
  ⟨by rw [rowOf]; decide, formatXY_covered _ _ x y _ _ (by decide) (by decide) rfl⟩

theorem subReg (x : Reg) (y : Reg) : Statement (.subReg x y) :=
  ⟨by rw [rowOf]; decide, formatXY_covered _ _ x y _ _ (by decide) (by decide) rfl⟩

theorem shr (x : Reg) (y : Reg) : Statement (.shr x y) :=
  ⟨by rw [rowOf]; decide, formatXY_covered _ _ x y _ _ (by decide) (by decide) rfl⟩

theorem subnReg (x : Reg) (y : Reg) : Statement (.subnReg x y) :=
  ⟨by rw [rowOf]; decide, formatXY_covered _ _ x y _ _ (by decide) (by decide) rfl⟩

theorem shl (x : Reg) (y : Reg) : Statement (.shl x y) :=
  ⟨by rw [rowOf]; decide, formatXY_covered _ _ x y _ _ (by decide) (by decide) rfl⟩

theorem sneReg (x : Reg) (y : Reg) : Statement (.sneReg x y) :=
  ⟨by rw [rowOf]; decide, formatXY_covered _ _ x y _ _ (by decide) (by decide) rfl⟩

theorem ldI (nnn : BitVec 12) : Statement (.ldI nnn) :=
  ⟨by rw [rowOf]; decide, formatA_covered _ _ nnn _ (by decide) rfl⟩

theorem jpV0 (nnn : BitVec 12) : Statement (.jpV0 nnn) :=
  ⟨by rw [rowOf]; decide, formatA_covered _ _ nnn _ (by decide) rfl⟩

theorem rnd (x : Reg) (kk : Byte) : Statement (.rnd x kk) :=
  ⟨by rw [rowOf]; decide, formatXK_covered _ _ x kk _ (by decide) rfl⟩

theorem drw (x : Reg) (y : Reg) (n : Fin 16) : Statement (.drw x y n) :=
  ⟨by rw [rowOf]; decide, formatXYN_covered _ _ x y _ _ (by decide) n.isLt rfl⟩

theorem skp (x : Reg) : Statement (.skp x) :=
  ⟨by rw [rowOf]; decide, formatX_covered _ _ x _ _ (by decide) (by decide) rfl⟩

theorem sknp (x : Reg) : Statement (.sknp x) :=
  ⟨by rw [rowOf]; decide, formatX_covered _ _ x _ _ (by decide) (by decide) rfl⟩

theorem ldVxDt (x : Reg) : Statement (.ldVxDt x) :=
  ⟨by rw [rowOf]; decide, formatX_covered _ _ x _ _ (by decide) (by decide) rfl⟩

theorem ldVxK (x : Reg) : Statement (.ldVxK x) :=
  ⟨by rw [rowOf]; decide, formatX_covered _ _ x _ _ (by decide) (by decide) rfl⟩

theorem ldDtVx (x : Reg) : Statement (.ldDtVx x) :=
  ⟨by rw [rowOf]; decide, formatX_covered _ _ x _ _ (by decide) (by decide) rfl⟩

theorem ldStVx (x : Reg) : Statement (.ldStVx x) :=
  ⟨by rw [rowOf]; decide, formatX_covered _ _ x _ _ (by decide) (by decide) rfl⟩

theorem addI (x : Reg) : Statement (.addI x) :=
  ⟨by rw [rowOf]; decide, formatX_covered _ _ x _ _ (by decide) (by decide) rfl⟩

theorem ldF (x : Reg) : Statement (.ldF x) :=
  ⟨by rw [rowOf]; decide, formatX_covered _ _ x _ _ (by decide) (by decide) rfl⟩

theorem ldB (x : Reg) : Statement (.ldB x) :=
  ⟨by rw [rowOf]; decide, formatX_covered _ _ x _ _ (by decide) (by decide) rfl⟩

theorem stBlock (x : Reg) : Statement (.stBlock x) :=
  ⟨by rw [rowOf]; decide, formatX_covered _ _ x _ _ (by decide) (by decide) rfl⟩

theorem ldBlock (x : Reg) : Statement (.ldBlock x) :=
  ⟨by rw [rowOf]; decide, formatX_covered _ _ x _ _ (by decide) (by decide) rfl⟩

end Sys2Proof.Laws.FixedBits
end

