-- ==== Sys2Proof/Tests/Slice0.lean ====
section
/-! SUPPORT. Tests of the model, each about one word, one step or one event, and a witness for the hypotheses of every statement.
Every expected value is the spec's: a worked example of an instruction rule, or a row of spec/95_test_vectors.md (T2.x is its section). -/

namespace Sys2Proof.Tests
open Sys2Proof Sys2Proof.Machine

/-! ### Well-formedness refuses the ill-formed (R75, R201) -/

theorem test_wf_family0 : legalWord 0x0000 = false ∧ legalWord 0x00FF = false := by decide
theorem test_wf_family5 : legalWord 0x5121 = false ∧ legalWord 0x5120 = true := by decide
theorem test_wf_family8 : legalWord 0x8128 = false ∧ legalWord 0x812F = false ∧ legalWord 0x812E = true := by decide
theorem test_wf_family9 : legalWord 0x9AB1 = false ∧ legalWord 0x9AB0 = true := by decide
theorem test_wf_familyE : legalWord 0xE19F = false ∧ legalWord 0xE19E = true := by decide
theorem test_wf_familyF : legalWord 0xF100 = false ∧ legalWord 0xF075 = false ∧ legalWord 0xF165 = true := by decide
theorem test_wf_image_at_limit : imageFits (List.replicate 3584 0xAA) = true := by
  simp only [imageFits, List.length_replicate]; decide
theorem test_wf_image_over_limit : imageFits (List.replicate 3585 0xAA) = false := by
  simp only [imageFits, List.length_replicate]; decide

/-! ### Decoding: a word of every row, bit by bit from the pattern column of R74 (x = 1, y = 2 unless said) -/

theorem test_decode_cls : decode 0b0000_0000_1110_0000 = .ok .cls := rfl
theorem test_decode_ret : decode 0b0000_0000_1110_1110 = .ok .ret := rfl
theorem test_decode_jp : decode 0b0001_1010_1011_1100 = .ok (.jp 0xABC) := rfl
theorem test_decode_call : decode 0b0010_0011_0000_0001 = .ok (.call 0x301) := rfl
theorem test_decode_seImm : decode 0b0011_0011_0100_0010 = .ok (.seImm 3 0x42) := rfl
theorem test_decode_sneImm : decode 0b0100_0011_0100_0010 = .ok (.sneImm 3 0x42) := rfl
theorem test_decode_seReg : decode 0b0101_0001_0010_0000 = .ok (.seReg 1 2) := rfl
theorem test_decode_ldImm : decode 0b0110_0000_0000_1010 = .ok (.ldImm 0 10) := rfl
theorem test_decode_addImm : decode 0b0111_0001_1111_1110 = .ok (.addImm 1 0xFE) := rfl
theorem test_decode_ldReg : decode 0b1000_0001_0010_0000 = .ok (.ldReg 1 2) := rfl
theorem test_decode_orReg : decode 0b1000_0001_0010_0001 = .ok (.orReg 1 2) := rfl
theorem test_decode_andReg : decode 0b1000_0001_0010_0010 = .ok (.andReg 1 2) := rfl
theorem test_decode_xorReg : decode 0b1000_0001_0010_0011 = .ok (.xorReg 1 2) := rfl
theorem test_decode_addReg : decode 0b1000_1111_0001_0100 = .ok (.addReg 15 1) := rfl
theorem test_decode_subReg : decode 0b1000_0001_0010_0101 = .ok (.subReg 1 2) := rfl
theorem test_decode_shr : decode 0b1000_0001_1111_0110 = .ok (.shr 1 15) := rfl
theorem test_decode_subnReg : decode 0b1000_0001_0010_0111 = .ok (.subnReg 1 2) := rfl
theorem test_decode_shl : decode 0b1000_0001_0010_1110 = .ok (.shl 1 2) := rfl
theorem test_decode_sneReg : decode 0b1001_0001_0010_0000 = .ok (.sneReg 1 2) := rfl
theorem test_decode_ldI : decode 0b1010_0011_0000_0000 = .ok (.ldI 0x300) := rfl
theorem test_decode_jpV0 : decode 0b1011_0010_1111_1111 = .ok (.jpV0 0x2FF) := rfl
theorem test_decode_rnd : decode 0b1100_0001_0000_1111 = .ok (.rnd 1 0x0F) := rfl
theorem test_decode_drw : decode 0b1101_0001_0010_1010 = .ok (.drw 1 2 10) := rfl
theorem test_decode_skp : decode 0b1110_0001_1001_1110 = .ok (.skp 1) := rfl
theorem test_decode_sknp : decode 0b1110_0001_1010_0001 = .ok (.sknp 1) := rfl
theorem test_decode_ldVxDt : decode 0b1111_0001_0000_0111 = .ok (.ldVxDt 1) := rfl
theorem test_decode_ldVxK : decode 0b1111_0001_0000_1010 = .ok (.ldVxK 1) := rfl
theorem test_decode_ldDtVx : decode 0b1111_0001_0001_0101 = .ok (.ldDtVx 1) := rfl
theorem test_decode_ldStVx : decode 0b1111_0001_0001_1000 = .ok (.ldStVx 1) := rfl
theorem test_decode_addI : decode 0b1111_0001_0001_1110 = .ok (.addI 1) := rfl
theorem test_decode_ldF : decode 0b1111_0001_0010_1001 = .ok (.ldF 1) := rfl
theorem test_decode_ldB : decode 0b1111_0001_0011_0011 = .ok (.ldB 1) := rfl
theorem test_decode_stBlock : decode 0b1111_0001_0101_0101 = .ok (.stBlock 1) := rfl
theorem test_decode_ldBlock : decode 0b1111_0001_0110_0101 = .ok (.ldBlock 1) := rfl

/-- R54: the byte at the lower address is the high one (the source's "60 0A" is LD V0, 10). -/
theorem test_decode_byte_order : decodeBytes [0x60, 0x0A, 0x61] = .ok (.ldImm 0 10, [0x61]) := rfl

/-- R70: every instruction has two bytes. -/
theorem test_decode_truncated : decodeBytes [0x60] = .error .truncated := rfl

/-! ### Helpers: the next state of one step, or of one event -/

/-- The state a result holds. -/
def res : Result → Option State
  | .next s => some s
  | .fault _ => none
  | .refused _ => none

/-- The state after one step whose word is `w`. -/
def stepOn (s : State) (w : Nat) : Option State := res (step (s.withFetchWord 16 w))

/-- The state after one event. -/
def eventOn (s : State) (e : HostEvent) : Option State := res (applyEvent e s)

/-- Reset, with V[1] = a and V[2] = b. -/
def v12 (a b : Byte) : State := (State.reset.setReg 1 a).setReg 2 b

/-- Reset, with I = i and V[0] = a. -/
def atI (i : Addr) (a : Byte) : State := { State.reset.setReg 0 a with i := i }

/-- The bytes at `a .. a+n-1`. -/
def bytesAt (t : State) (a n : Nat) : List Byte := t.mem.readRun t.font a n

/-! ### Control transfer (T2.3, R100 to R107) -/

theorem test_ret :
    (stepOn { State.reset with pc := 0x300, sp := 1, stack := State.reset.stack.set 0 0x202 } 0x00EE).map
      (fun t => (t.pc, t.sp.val)) = some (0x202, 0) := by decide
theorem test_ret_underflow :
    (stepOn State.reset 0x00EE).map (fun t => (t.run, t.fcause, t.fpc, t.fword, t.pc)) =
      some (.halted, 3, 0x200, 0x00EE, 0x200) := by decide
theorem test_jp : (stepOn State.reset 0x1ABC).map (·.pc) = some 0xABC := by decide
theorem test_call :
    (stepOn State.reset 0x2300).map (fun t => (t.pc, t.sp.val, t.stack[0])) = some (0x300, 1, 0x202) := by decide
theorem test_call_overflow :
    (stepOn { State.reset with sp := 16 } 0x2200).map (fun t => (t.run, t.fcause, t.fword, t.sp.val, t.pc)) =
      some (.halted, 2, 0x2200, 16, 0x200) := by decide
theorem test_seImm :
    (stepOn (State.reset.setReg 3 0x42) 0x3342).map (·.pc) = some 0x204 ∧
    (stepOn (State.reset.setReg 3 0x42) 0x3343).map (·.pc) = some 0x202 := by decide
theorem test_sneImm :
    (stepOn (State.reset.setReg 3 0x42) 0x4342).map (·.pc) = some 0x202 ∧
    (stepOn (State.reset.setReg 3 0x42) 0x4300).map (·.pc) = some 0x204 := by decide
theorem test_seReg :
    (stepOn (v12 7 7) 0x5120).map (·.pc) = some 0x204 ∧ (stepOn (v12 7 8) 0x5120).map (·.pc) = some 0x202 := by decide
theorem test_sneReg :
    (stepOn (v12 7 8) 0x9120).map (·.pc) = some 0x204 ∧ (stepOn (v12 7 7) 0x9120).map (·.pc) = some 0x202 := by decide
theorem test_skip_at_top :
    (stepOn { State.reset with pc := 0xFFE } 0x3000).map (·.pc) = some 0x1002 := by decide
theorem test_jpV0 : (stepOn (State.reset.setReg 0 4) 0xB300).map (·.pc) = some 0x304 := by decide
theorem test_jpV0_not_masked : (stepOn (State.reset.setReg 0 0xFF) 0xBFFF).map (·.pc) = some 0x10FE := by decide

/-! ### Arithmetic and logic (T2.4, R120 to R134): V[x] and VF after, with VF = 9 before where the test says so -/

theorem test_ldImm : (stepOn State.reset 0x600A).map (fun t => (t.reg 0, t.pc)) = some (0x0A, 0x202) := by decide
theorem test_addImm_wraps :
    (stepOn ((State.reset.setReg 0 0xFF).setReg 15 9) 0x7001).map (fun t => (t.reg 0, t.reg 15)) = some (0, 9) := by decide
theorem test_ldReg : (stepOn (v12 0 0x5A) 0x8120).map (fun t => (t.reg 1, t.reg 2)) = some (0x5A, 0x5A) := by decide
theorem test_orReg :
    (stepOn ((v12 0xF0 0x3C).setReg 15 9) 0x8121).map (fun t => (t.reg 1, t.reg 15)) = some (0xFC, 9) := by decide
theorem test_andReg :
    (stepOn ((v12 0xF0 0x3C).setReg 15 9) 0x8122).map (fun t => (t.reg 1, t.reg 15)) = some (0x30, 9) := by decide
theorem test_xorReg :
    (stepOn ((v12 0xF0 0x3C).setReg 15 9) 0x8123).map (fun t => (t.reg 1, t.reg 15)) = some (0xCC, 9) := by decide
theorem test_addReg_carry :
    (stepOn (v12 0x80 0x80) 0x8124).map (fun t => (t.reg 1, t.reg 15)) = some (0, 1) ∧
    (stepOn (v12 0x7F 0x80) 0x8124).map (fun t => (t.reg 1, t.reg 15)) = some (0xFF, 0) := by decide
theorem test_addReg_result_wins :
    (stepOn ((State.reset.setReg 15 0xFF).setReg 1 1) 0x8F14).map (·.reg 15) = some 0 ∧
    (stepOn ((State.reset.setReg 15 3).setReg 1 4) 0x8F14).map (·.reg 15) = some 7 := by decide
theorem test_subReg :
    (stepOn (v12 5 5) 0x8125).map (fun t => (t.reg 1, t.reg 15)) = some (0, 1) ∧
    (stepOn (v12 4 5) 0x8125).map (fun t => (t.reg 1, t.reg 15)) = some (0xFF, 0) := by decide
theorem test_subReg_result_wins :
    (stepOn ((State.reset.setReg 15 5).setReg 1 6) 0x8F15).map (·.reg 15) = some 0xFF := by decide
theorem test_shr_ignores_y :
    (stepOn ((v12 0x80 0).setReg 15 0x77) 0x81F6).map (fun t => (t.reg 1, t.reg 15)) = some (0x40, 0) := by decide
theorem test_shr_vf : (stepOn (State.reset.setReg 15 2) 0x8FF6).map (·.reg 15) = some 1 := by decide
theorem test_subnReg :
    (stepOn (v12 5 3) 0x8127).map (fun t => (t.reg 1, t.reg 15)) = some (0xFE, 0) ∧
    (stepOn (v12 3 5) 0x8127).map (fun t => (t.reg 1, t.reg 15)) = some (2, 1) := by decide
theorem test_shl :
    (stepOn (v12 0x81 0) 0x810E).map (fun t => (t.reg 1, t.reg 15)) = some (2, 1) ∧
    (stepOn (v12 0x40 0) 0x810E).map (fun t => (t.reg 1, t.reg 15)) = some (0x80, 0) := by decide
theorem test_shl_vf : (stepOn (State.reset.setReg 15 0x81) 0x8FFE).map (·.reg 15) = some 2 := by decide

/-- T2.4: "C10F, rnd = 0xA7: V[1] = 0x07"; the byte comes with the STEP event. -/
theorem test_rnd_byte_of_step :
    (eventOn (State.reset.withFetchWord 16 0xC10F) (.step 0xA7)).map (fun t => (t.reg 1, t.rnd)) = some (7, none) := by
  decide

/-- T2.4: "C100, rnd any: V[1] = 0x00", on the free value too. -/
theorem test_rnd_masked_to_zero : (stepOn (v12 0x55 0) 0xC100).map (·.reg 1) = some 0 := by
  have h : step ((v12 0x55 0).withFetchWord 16 0xC100) = exec (.rnd 1 0) ((v12 0x55 0).withFetchWord 16 0xC100) := rfl
  rw [stepOn, h]
  change some (randomByte _ &&& 0) = some 0
  simp

/-! ### Index register and memory (T2.5, R140 to R147) -/

theorem test_ldI : (stepOn State.reset 0xA300).map (fun t => (t.i, t.pc)) = some (0x300, 0x202) := by decide
theorem test_addI :
    (stepOn { State.reset.setReg 1 1 with i := 0xFFF } 0xF11E).map (fun t => (t.i, t.reg 15, t.run)) =
      some (0x1000, 0, .running) := by decide
theorem test_addI_wraps : (stepOn { State.reset.setReg 1 2 with i := 0xFFFF } 0xF11E).map (·.i) = some 1 := by decide
theorem test_ldF : (stepOn (State.reset.setReg 0 0x0A) 0xF029).map (·.i) = some 0x32 := by decide
theorem test_ldF_whole_byte : (stepOn (State.reset.setReg 0 0xFF) 0xF029).map (·.i) = some 0x4FB := by decide
theorem test_ldB :
    (stepOn (atI 0x300 0xEA) 0xF033).map (fun t => (bytesAt t 0x300 3, t.i)) = some ([2, 3, 4], 0x300) := by decide
theorem test_ldB_out_of_range :
    (stepOn (atI 0xFFE 0xEA) 0xF033).map (fun t => (t.fcause, t.fpc, t.fword, t.faddr, bytesAt t 0xFFE 2)) =
      some (4, 0x200, 0xF033, 0x1000, [0, 0]) := by decide
theorem test_stBlock :
    (stepOn { v12 0x11 0x12 with i := 0x300 } 0xF255).map (fun t => (bytesAt t 0x300 4, t.i)) =
      some ([0, 0x11, 0x12, 0], 0x300) := by decide
theorem test_stBlock_out_of_range :
    (stepOn (atI 0xFF1 7) 0xFF55).map (fun t => (t.fcause, t.faddr, t.fword, t.mem == (State.reset.withFetchWord 16 0xFF55).mem)) =
      some (4, 0x1000, 0xFF55, true) := by decide
theorem test_ldBlock :
    (stepOn { State.reset.setReg 3 0x99 with i := 0x300, mem := [(0x300, 2), (0x301, 3), (0x302, 4), (0x303, 5)] } 0xF265).map
      (fun t => (t.reg 0, t.reg 1, t.reg 2, t.reg 3, t.i)) = some (2, 3, 4, 0x99, 0x300) := by decide
theorem test_ldBlock_top_of_memory :
    (stepOn { State.reset with i := 0xFFF, mem := [(0xFFF, 0x7E)] } 0xF065).map (·.reg 0) = some 0x7E ∧
    (stepOn { State.reset with i := 0xFFF, mem := [(0xFFF, 0x7E)] } 0xF165).map (fun t => (t.faddr, t.reg 0)) =
      some (0x1000, 0) := by decide

/-! ### The display (T2.6, R150 to R152) -/

/-- Reset, with V[0] = a, V[1] = b, I = 0x300 and a sprite of one byte there. -/
def sprite (a b row : Byte) : State :=
  { (State.reset.setReg 0 a).setReg 1 b with i := 0x300, mem := Memory.write Config.font [] 0x300 row }

theorem test_cls :
    (stepOn { State.reset.setReg 15 1 with disp := State.reset.disp.toggle 63 31 } 0x00E0).map
      (fun t => (t.disp.cell 63 31, t.reg 15)) = some (false, 1) := by decide
/-- Columns wrap within the row; the origin (255, 255) is the cell (63, 31), where a set pixel collides; VF as origin is read first. -/
theorem test_drw_pixels :
    (stepOn (sprite 60 0 0xFF) 0xD011).map
      (fun t => (t.disp.cell 59 0, t.disp.cell 60 0, t.disp.cell 63 0, t.disp.cell 3 0, t.disp.cell 4 0, t.reg 15)) =
      some (false, true, true, true, false, 0) ∧
    (stepOn { sprite 0xFF 0xFF 0x80 with disp := State.reset.disp.toggle 63 31 } 0xD011).map
      (fun t => (t.disp.cell 63 31, t.reg 15)) = some (false, 1) ∧
    (stepOn ((sprite 2 0 0x80).setReg 15 5) 0xDF01).map (fun t => (t.disp.cell 5 2, t.reg 15)) = some (true, 0) := by decide

/-- Dxy0 reads nothing and cannot fault; one row at 0xFFF is in range, two are not. -/
theorem test_drw_ranges :
    (stepOn { State.reset.setReg 15 1 with i := 0xFFFF } 0xD010).map
      (fun t => (t.disp.cell 0 0, t.reg 15, t.pc, t.run)) = some (false, 0, 0x202, .running) ∧
    (stepOn { State.reset with i := 0xFFF, mem := [(0xFFF, 0x80)] } 0xD011).map (fun t => t.disp.cell 0 0) = some true ∧
    (stepOn { State.reset.setReg 15 1 with i := 0xFFF } 0xD012).map
      (fun t => (t.fcause, t.faddr, t.fword, t.reg 15)) = some (4, 0x1000, 0xD012, 1) := by decide

/-! ### Timers and keypad (T2.7, R160 to R166, R181 to R184) -/

theorem test_ldDtVx : (stepOn (State.reset.setReg 0 5) 0xF015).map (·.dt) = some 5 := by decide
theorem test_ldStVx : (stepOn (v12 0 0x1E) 0xF218).map (fun t => (t.st, t.tone)) = some (0x1E, true) := by decide
theorem test_ldVxDt : (stepOn { State.reset with dt := 4 } 0xF107).map (fun t => (t.reg 1, t.dt)) = some (4, 4) := by decide
theorem test_skp_low_four_bits :
    (stepOn { State.reset.setReg 0 0x15 with key := State.reset.key.set 5 true } 0xE09E).map (·.pc) = some 0x204 ∧
    (stepOn (State.reset.setReg 0 5) 0xE09E).map (·.pc) = some 0x202 := by decide
theorem test_sknp :
    (stepOn { State.reset.setReg 0 5 with key := State.reset.key.set 5 true } 0xE0A1).map (·.pc) = some 0x202 ∧
    (stepOn (State.reset.setReg 0 5) 0xE0A1).map (·.pc) = some 0x204 := by decide
theorem test_ldVxK_ignores_held_key :
    (stepOn { State.reset with key := State.reset.key.set 7 true } 0xF00A).map (fun t => (t.wait, t.pc)) =
      some (some 0, 0x200) := by decide
theorem test_key_edge_ends_wait :
    (eventOn { State.reset with wait := some 15 } (.key 15 true)).map (fun t => (t.reg 15, t.wait, t.pc, t.keyDown 15)) =
      some (15, none, 0x202, true) := by decide
theorem test_key_repeat_is_no_edge :
    (eventOn { State.reset with wait := some 2, key := State.reset.key.set 5 true } (.key 5 true)).map
      (fun t => (t.wait, t.pc)) = some (some 2, 0x200) := by decide
theorem test_tick :
    (eventOn { State.reset with dt := 255, st := 1 } .tick).map (fun t => (t.dt, t.st, t.tone)) = some (254, 0, false) := by
  decide
theorem test_tick_while_halted :
    (eventOn { State.reset with run := .halted, dt := 3, st := 0 } .tick).map (fun t => (t.dt, t.st)) = some (2, 0) := by decide

/-! ### Fetch, reset and load (T2.2, T2.8, R91, R171, R200, R201) -/

/-- R200: with no program the first step takes DecodeError on the word 0x0000 at 0x200. -/
theorem test_step_after_reset :
    (res (step State.reset)).map (fun t => (t.run, t.fcause, t.fpc, t.fword, t.faddr)) =
      some (.halted, 1, 0x200, 0x0000, 0) := by decide
theorem test_fetch_out_of_range :
    (res (step { State.reset with pc := 0xFFF })).map (fun t => (t.fcause, t.fpc, t.fword, t.faddr)) =
      some (4, 0xFFF, 0, 0x1000) ∧
    (res (step { State.reset with pc := 0x10FE })).map (fun t => (t.fcause, t.fpc, t.fword, t.faddr)) =
      some (4, 0x10FE, 0, 0x10FE) := by decide
theorem test_fetch_at_odd_pc :
    (res (step { State.reset with pc := 0x201, mem := [(0x201, 0x60), (0x202, 0x0A)] })).map (fun t => (t.reg 0, t.pc)) =
      some (0x0A, 0x203) := by decide
/-- T2.8; the font byte 0xF0 is the default FONT's (log entry 9). -/
theorem test_load_leaves_halted :
    (eventOn { State.reset with run := .halted, fcause := 1 } (.load [0x12, 0x00])).map
      (fun t => (t.run, t.fcause, bytesAt t 0x200 3, bytesAt t 0 1)) =
      some (.running, 0, [0x12, 0x00, 0x00], [0xF0]) := by decide

/-- T2.8; the bytes are the default FONT's (log entry 9). -/
theorem test_reset_restores_font :
    (eventOn { State.reset with mem := [(0, 0xAA)] } .reset).map (fun t => bytesAt t 0 2) = some [0xF0, 0x90] := by decide

/-- R6, R52: a machine with another FONT gets that one back at RESET, after a store over it. -/
theorem test_reset_restores_other_font :
    (eventOn { State.reset with font := Vector.replicate 80 0xAA, mem := [(0, 0x55)] } .reset).map (fun t => bytesAt t 0x4F 2) =
      some [0xAA, 0x00] := by decide

/-- R39: KEY, then STEP, then TICK in one cycle; a reset stands alone. -/
theorem test_port_order :
    (State.reset.clockCycle { PortIn.idle with step := true, rnd := 7, tick := true, keyValid := true, keyCode := 5, keyDown := true }).events =
      [.key 5 true, .step 7, .tick] ∧
    (State.reset.clockCycle { PortIn.idle with reset := true, step := true, tick := true }).events = [.reset] := by decide

/-- R39: the bytes 12 00 streamed, with an idle cycle and a TICK between; the TICK of the last byte's cycle is not applied. -/
theorem test_port_stream :
    (State.reset.clockCycles
      [{ PortIn.idle with ldValid := true, ldData := 0x12 }, { PortIn.idle with tick := true }, PortIn.idle,
        { PortIn.idle with ldValid := true, ldLast := true, tick := true }]).events = [.tick, .load [0x12, 0x00]] := by decide

/-! ### Witnesses: for every statement with hypotheses, concrete data that meets them together, at the ends of each range -/

/-- Reset with the word `w` where the next step fetches. -/
def at0 (w : Nat) : State := State.reset.withFetchWord 16 w

/-- Reset with PC at `pc` and `sp` stack entries, each 0x1000. -/
def deep (sp : Fin 17) (pc : Addr) : State :=
  { State.reset with sp := sp, stack := Vector.replicate 16 0x1000, pc := pc }

/-- Waiting at an Fx0A with x = 2. -/
def waiting : State := { at0 0xF20A with wait := some 2 }

theorem witness_StepRunsDecodedInstruction :
    (at0 0x600A).events = [] ∧ (at0 0x600A).Ready ∧ (at0 0x600A).pc.toNat ≤ 0xFFE ∧
    decode ((at0 0x600A).wordAt (at0 0x600A).pc.toNat) = .ok (.ldImm 0 10) := ⟨rfl, ⟨rfl, rfl⟩, by decide, rfl⟩
theorem witness_StepAppliesOldestEvent :
    ({ State.reset with events := [.tick, .reset] } : State).events = HostEvent.tick :: [HostEvent.reset] := rfl
theorem witness_GatedStepChangesNothing_gated :
    ¬ ({ State.reset with run := .halted } : State).Ready ∧ ¬ waiting.Ready ∧ waiting.events = [] :=
  ⟨fun h => absurd h.1 (by decide), fun h => absurd h.2 (by decide), rfl⟩
theorem witness_GatedStepChangesNothing_ready :
    (at0 0xC10F).Ready ∧ (at0 0xC10F).pc.toNat ≤ 0xFFE ∧
    decode ((at0 0xC10F).wordAt (at0 0xC10F).pc.toNat) = .ok (.rnd 1 0x0F) := ⟨⟨rfl, rfl⟩, by decide, rfl⟩
theorem witness_FetchReadsBigEndianOrFaults :
    (deep 0 0xFFE).Ready ∧ (deep 0 0xFFE).pc.toNat ≤ 0xFFE ∧ (deep 0 0x201).Ready ∧ (deep 0 0x201).pc.toNat ≤ 0xFFE ∧
    (deep 0 0xFFF).Ready ∧ 0xFFE < (deep 0 0xFFF).pc.toNat :=
  ⟨⟨rfl, rfl⟩, by decide, ⟨rfl, rfl⟩, by decide, ⟨rfl, rfl⟩, by decide⟩
theorem witness_DecodeErrorExactlyOnIllegalWords :
    State.reset.Ready ∧ State.reset.pc.toNat ≤ 0xFFE ∧ legalWord (State.reset.wordAt State.reset.pc.toNat) = false ∧
    (at0 0x600A).Ready ∧ (at0 0x600A).pc.toNat ≤ 0xFFE ∧ legalWord ((at0 0x600A).wordAt (at0 0x600A).pc.toNat) = true :=
  ⟨⟨rfl, rfl⟩, by decide, by decide, ⟨rfl, rfl⟩, by decide, by decide⟩
theorem witness_RandomByteReadOnlyByRnd : ∀ x kk, Instr.drw 1 2 3 ≠ .rnd x kk := by simp
theorem witness_JumpToSelfIsSteady : endOfRun (at0 0x1200) = true ∧ (at0 0x1200).events = [] := by decide
theorem witness_PlacedWordRunsNext :
    State.reset.mem.wf State.reset.font = true ∧ decodeTableWord 16 0x600A = some (.ldImm 0 10) := ⟨rfl, rfl⟩
theorem witness_EncodeOfDecodeIsIdentity : decode 0x81F6 = .ok (.shr 1 15) := rfl
theorem witness_OpcodeRowsNeverOverlap :
    (⟨"8xy6", 0x8006, 0xF00F⟩ : OpRow) ∈ opcodeTable ∧ (⟨"8xy6", 0x8006, 0xF00F⟩ : OpRow).covers 0x81F6 = true := by decide
theorem witness_OffsetJumpAddsV0 :
    (State.reset.setReg 0 0xFF).Ready ∧ exec (.jpV0 0xF00) (State.reset.setReg 0 0xFF) =
      .next { State.reset.setReg 0 0xFF with pc := 0xFFF } ∧ 0xFFE < (0xFFF : Addr).toNat := ⟨⟨rfl, rfl⟩, rfl, by decide⟩
theorem witness_CallPushesReturnAddress : (deep 15 0x200).sp.val < 16 ∧ (deep 16 0x200).sp.val = 16 := by decide
theorem witness_ReturnPopsNewestEntry :
    0 < (deep 1 0x200).sp.val ∧ 0 < (deep 16 0x200).sp.val ∧ (deep 0 0x200).sp.val = 0 := by decide
theorem witness_CallThenReturnRestoresPc :
    (deep 15 0x200).sp.val < 16 ∧ ∃ t, exec (.call 0x300) (deep 15 0x200) = .next t ∧ t.sp = t.sp ∧ t.stack = t.stack :=
  ⟨by decide, _, rfl, rfl, rfl⟩
theorem witness_destination_not_vf : (0 : Reg) ≠ vf ∧ (14 : Reg) ≠ vf := by decide
theorem witness_RandomByteIsMasked : ({ State.reset with rnd := some 0xA7 } : State).rnd = some 0xA7 := rfl
theorem witness_BcdStoresDigits :
    (atI 0xFFD 0xEA).mem.wf (atI 0xFFD 0xEA).font = true ∧ (atI 0xFFD 0xEA).i.toNat ≤ 0xFFD ∧
    (atI 0xFFE 0xEA).mem.wf (atI 0xFFE 0xEA).font = true ∧ 0xFFD < (atI 0xFFE 0xEA).i.toNat := by decide
theorem witness_BlockStoreWritesMemory :
    (atI 0xFF0 7).mem.wf (atI 0xFF0 7).font = true ∧ (atI 0xFF0 7).i.toNat + (15 : Reg).val ≤ 0xFFF ∧
    (atI 0xFF1 7).mem.wf (atI 0xFF1 7).font = true ∧ 0xFFF < (atI 0xFF1 7).i.toNat + (15 : Reg).val := by decide
theorem witness_BlockLoadReadsMemory :
    (atI 0xFFF 7).i.toNat + (0 : Reg).val ≤ 0xFFF ∧ 0xFFF < (atI 0xFFF 7).i.toNat + (1 : Reg).val := by decide
theorem witness_BlockStoreLoadRoundTrip :
    (atI 0x300 7).mem.wf (atI 0x300 7).font = true ∧ (atI 0x300 7).i.toNat + (1 : Reg).val ≤ 0xFFF ∧
    ∃ t, exec (.stBlock 1) (atI 0x300 7) = .next t ∧ SameBytes t (t.setReg 0 0) ∧ (t.setReg 0 0).i = (atI 0x300 7).i :=
  ⟨rfl, by decide, _, rfl, fun _ => rfl, rfl⟩
theorem witness_StoreIsSeenByNextFetch :
    (atI 0x202 0x62).mem.wf (atI 0x202 0x62).font = true ∧ (atI 0x202 0x62).i.toNat + (1 : Reg).val ≤ 0xFFF ∧ (1 : Reg) ≤ 1 ∧
    (1 : Reg).val = (0 : Reg).val + 1 ∧
    ∃ t, exec (.stBlock 1) (atI 0x202 0x62) = .next t ∧ t.pc.toNat = (atI 0x202 0x62).i.toNat + (0 : Reg).val :=
  ⟨rfl, by decide, by decide, rfl, _, rfl, rfl⟩
theorem witness_MemReadChecksRange :
    (0xFFF : Nat) ≤ 0xFFFF ∧ 1 ≤ 2 ∧ 0xFFF < 0xFFF + 2 - 1 ∧ 1 ≤ 1 ∧ 0xFFF + 1 - 1 ≤ 0xFFF ∧
    Memory.wf Config.font [] = true ∧ memWrite Config.font [] 0xFFE [7, 8] = .ok [(0xFFE, 7), (0xFFF, 8)] :=
  ⟨by decide, by decide, by decide, by decide, by decide, rfl, rfl⟩
theorem witness_MemWriteStoresWholeRun :
    Memory.wf Config.font [] = true ∧ (0xFFF : Nat) ≤ 0xFFFF ∧ 1 ≤ ([7, 8] : List Byte).length ∧
    0xFFF < 0xFFF + ([7, 8] : List Byte).length - 1 ∧ 0xFFE + ([7, 8] : List Byte).length - 1 ≤ 0xFFF := by decide
theorem witness_CanonicalMemoryIsDeterminedByReads :
    Memory.wf Config.font [(0x300, 7)] = true ∧ Memory.wf Config.font (Memory.write Config.font [] 0x300 7) = true ∧
    ∀ a, Memory.read Config.font [(0x300, 7)] a = (Memory.write Config.font [] 0x300 7).read Config.font a := ⟨by decide, by decide, fun _ => rfl⟩
theorem witness_ClearScreenClearsEveryCell :
    ∃ t t', exec .cls State.reset = .next t ∧ exec .cls { State.reset with disp := State.reset.disp.toggle 3 4 } = .next t' :=
  ⟨_, _, rfl, rfl⟩
theorem witness_DrawXorsSpriteCellwise_ranges :
    (0 : Fin 16).val = 0 ∧ (atI 0xFFF 7).i.toNat + (1 : Fin 16).val - 1 ≤ 0xFFF ∧
    1 ≤ (2 : Fin 16).val ∧ 0xFFF < (atI 0xFFF 7).i.toNat + (2 : Fin 16).val - 1 := by decide

/-- A sprite bit at column 64 + 0 wraps to column 0; over a cell of 1 it collides; the cell right of the sprite is not drawn over. -/
theorem witness_DrawXorsSpriteCellwise_cells :
    drawnOver (sprite 63 0 0xC0) 0 1 1 0 0 ∧
    (∃ cx cy, drawnOver (sprite 63 0 0xC0) 0 1 1 cx cy ∧ (State.reset.disp.toggle 0 0).cell cx cy = true) ∧
    ¬ drawnOver (sprite 63 0 0xC0) 0 1 0 0 0 ∧
    ¬ ∃ cx cy, drawnOver (sprite 63 0 0xC0) 0 1 1 cx cy ∧ State.reset.disp.cell cx cy = true := by
  have h : drawnOver (sprite 63 0 0xC0) 0 1 1 0 0 := ⟨0, 1, by decide, by decide, by decide, by decide, by decide⟩
  refine ⟨h, ⟨0, 0, h, by decide⟩, fun ⟨r, _, hr, _⟩ => absurd hr (by simp), ?_⟩
  rintro ⟨cx, cy, _, hc⟩
  simp [State.reset, State.resetWith, Display.cell] at hc
theorem witness_DrawTwiceRestoresDisplay :
    (sprite 63 0 0xC0).i.toNat + (1 : Fin 16).val - 1 ≤ 0xFFF ∧
    ∃ t, exec (.drw 0 1 1) (sprite 63 0 0xC0) = .next t ∧ t.disp = t.disp ∧ SameBytes (sprite 63 0 0xC0) t ∧
      t.i = (sprite 63 0 0xC0).i ∧ t.reg 0 = (sprite 63 0 0xC0).reg 0 ∧ t.reg 1 = (sprite 63 0 0xC0).reg 1 :=
  ⟨by decide, _, rfl, rfl, fun _ => rfl, rfl, rfl, rfl⟩
theorem witness_KeySkips : (5 : Fin 16).val = ((State.reset.setReg 0 0x15).reg 0).toNat % 16 := by decide
theorem witness_ToneFollowsSoundTimer :
    (∃ t, exec (.ldStVx 0) (State.reset.setReg 0 1) = .next t) ∧ (∃ t, applyEvent .tick State.reset = .next t) ∧
    isRestart .reset = true ∧ isRestart (.load [0x12, 0x00]) = true ∧ ∃ t, applyEvent (.load [0x12, 0x00]) State.reset = .next t :=
  ⟨⟨_, rfl⟩, ⟨_, rfl⟩, rfl, rfl, ⟨_, rfl⟩⟩
theorem witness_KeyEventEndsWait_edge :
    waiting.run = .running ∧ waiting.wait = some 2 ∧ true = true ∧ waiting.keyDown 5 = false := ⟨rfl, rfl, rfl, rfl⟩

/-- Each way for a KEY event to end no wait: HALTED, no wait, a key-up, a key that is down already. -/
theorem witness_KeyEventEndsWait_otherwise :
    (faulted State.reset .decodeError 0 0).run = .halted ∧ State.reset.wait = none ∧
    (waiting.run = .halted ∨ waiting.wait = none ∨ false = false ∨ waiting.keyDown 5 = true) ∧
    ({ waiting with key := waiting.key.set 5 true } : State).keyDown 5 = true :=
  ⟨rfl, rfl, .inr (.inr (.inl rfl)), by decide⟩
theorem witness_WaitEndsOnlyByEdgeOrRestart :
    waiting.run = .running ∧ waiting.wait = some 2 ∧ isEdgeEvent waiting (.key 5 true) = true ∧
    isEdgeEvent waiting (.key 5 false) = false ∧ isRestart (.key 5 false) = false := by decide
theorem witness_WaitLastsWithoutEdge :
    waiting.run = .running ∧ waiting.wait = some 2 ∧
    ∀ e ∈ [HostEvent.step 0, .tick, .key 3 false], (∃ r, e = .step r) ∨ e = .tick ∨ ∃ c, e = .key c false := by
  refine ⟨rfl, rfl, fun e he => ?_⟩
  simp only [List.mem_cons, List.not_mem_nil, or_false] at he
  obtain rfl | rfl | rfl := he
  · exact .inl ⟨0, rfl⟩
  · exact .inr (.inl rfl)
  · exact .inr (.inr ⟨3, rfl⟩)
theorem witness_FaultsAreExactAndPrecise :
    faultOf .ret (deep 0 0x200) = some .stackUnderflow ∧ faultOf .ret (deep 1 0x200) = none ∧
    faultOf (.call 0x300) (deep 16 0x200) = some .stackOverflow ∧ faultOf (.call 0x300) (deep 15 0x200) = none ∧
    faultOf (.drw 0 1 2) (atI 0xFFF 7) = some .addressOutOfRange ∧ faultOf (.drw 0 1 0) (atI 0xFFFF 7) = none := by decide
theorem witness_HaltedUntilRestart :
    ({ State.reset with run := .halted, fcause := 1 } : State).run = .halted ∧
    (∀ e ∈ [HostEvent.step 0, .tick, .key 3 true], isRestart e = false) ∧ isRestart .reset = true := by decide
theorem witness_LoadEventPlacesImage :
    (List.replicate 3584 (0xAA : Byte)).length ≤ 3584 ∧ 3584 < (List.replicate 3585 (0xAA : Byte)).length := by
  simp only [List.length_replicate]; decide
theorem witness_CycleAppliesEventsInOrder :
    ({ PortIn.idle with reset := true } : PortIn).reset = true ∧
    PortIn.idle.reset = false ∧ ({ PortIn.idle with ldValid := true, ldLast := true } : PortIn).ldValid = true ∧
    ({ PortIn.idle with ldValid := true, ldLast := true } : PortIn).ldLast = true ∧
    ({ PortIn.idle with ldValid := true } : PortIn).ldLast = false ∧ ({ PortIn.idle with ldLast := true } : PortIn).ldValid = false := by
  decide
theorem witness_StreamedImageIsOneLoad :
    State.reset.ldStream = [] ∧
    (∀ q ∈ [{ PortIn.idle with ldValid := true, ldData := 0x12 }, { PortIn.idle with tick := true, ldLast := true }],
      q.reset = false ∧ (q.ldValid = false ∨ q.ldLast = false)) ∧
    ({ PortIn.idle with ldValid := true, ldLast := true } : PortIn).completesLoad = true := by decide

/-- A faulting DRW and a faulting Fx65, which would write registers. -/
theorem witness_GeneralRegisterWriters_fault :
    (faultOf (.drw 0 1 2) (atI 0xFFF 7)).isSome = true ∧ (∃ t, exec (.drw 0 1 2) (atI 0xFFF 7) = .next t) ∧
    (faultOf (.ldBlock 1) (atI 0xFFF 7)).isSome = true ∧ ∃ t, exec (.ldBlock 1) (atI 0xFFF 7) = .next t :=
  ⟨by decide, ⟨_, rfl⟩, by decide, ⟨_, rfl⟩⟩
theorem witness_SpecialRegisterWriters_fault :
    (faultOf (.call 0x300) (deep 16 0x200)).isSome = true ∧ ∃ t, exec (.call 0x300) (deep 16 0x200) = .next t :=
  ⟨by decide, _, rfl⟩
theorem witness_MemoryWriters_fault :
    (atI 0xFF1 7).mem.wf (atI 0xFF1 7).font = true ∧ (faultOf (.stBlock 15) (atI 0xFF1 7)).isSome = true ∧
    ∃ t, exec (.stBlock 15) (atI 0xFF1 7) = .next t := ⟨by decide, by decide, _, rfl⟩
theorem witness_GeneralRegisterWriters :
    (∃ t, exec (.addReg 1 2) (v12 1 2) = .next t) ∧ writesReg (.addReg 1 2) 2 = false := ⟨⟨_, rfl⟩, rfl⟩
theorem witness_SpecialRegisterWriters :
    (∃ t, exec (.addReg 1 2) (v12 1 2) = .next t) ∧ writesIndex (.addReg 1 2) = false ∧ Instr.addReg 1 2 ≠ .ret ∧
    (∀ nnn, Instr.addReg 1 2 ≠ .call nnn) ∧ (∀ x, Instr.addReg 1 2 ≠ .ldDtVx x) ∧ (∀ x, Instr.addReg 1 2 ≠ .ldStVx x) ∧
    (∀ x, Instr.addReg 1 2 ≠ .ldVxK x) := ⟨⟨_, rfl⟩, rfl, by simp, by simp, by simp, by simp, by simp⟩
theorem witness_MemoryWriters :
    (atI 0x300 7).mem.wf (atI 0x300 7).font = true ∧ ∃ t, exec (.stBlock 1) (atI 0x300 7) = .next t := ⟨rfl, _, rfl⟩
theorem witness_DisplayWriters :
    ∃ t, applyEvent (.step 0) { at0 0x00E0 with disp := State.reset.disp.toggle 3 4 } = .next t ∧
      t.disp.cell 3 4 ≠ ({ at0 0x00E0 with disp := State.reset.disp.toggle 3 4 } : State).disp.cell 3 4 :=
  ⟨_, rfl, by decide⟩

theorem witness_FontParameterNeverChanges :
    ∃ t, step { at0 0x600A with events := [.reset], font := Vector.replicate 80 0xAA } = .next t := ⟨_, rfl⟩

/-- A state no reset gives meets the invariant: PC at its bound, a full stack of the largest return address. -/
theorem witness_InvariantKeptByEveryStep_running :
    Inv (deep 16 0x10FE) ∧ ∃ t, step (deep 16 0x10FE) = .next t := by
  refine ⟨⟨rfl, by decide, fun k _ => ?_, fun x h => ?_, fun h => ?_, fun _ => rfl⟩, _, rfl⟩
  · simp [deep]
  · cases h
  · cases h

/-- So do a waiting core and a halted one. -/
theorem witness_InvariantKeptByEveryStep_waiting : Inv waiting := by
  refine ⟨by decide, by decide, fun k h => ?_, fun x h => ?_, fun h => ?_, fun _ => rfl⟩
  · exact absurd h (Nat.not_lt_zero _)
  · cases h; exact ⟨rfl, by decide, rfl⟩
  · cases h
theorem witness_InvariantKeptByEveryStep_halted : Inv (faulted State.reset .decodeError 0 0) := by
  refine ⟨rfl, by decide, fun k h => ?_, fun x h => ?_, fun _ => ⟨rfl, .inl ⟨rfl, by decide, rfl⟩, rfl⟩, fun h => ?_⟩
  · exact absurd h (Nat.not_lt_zero _)
  · cases h
  · cases h

end Sys2Proof.Tests
end

section
/-! PROOFS. FONT is a parameter (spec/00_scope.md rule R6, spec/20_memory.md rule R52): what each layer of a step does to it, from
the shared memory operations up to the host's events. -/

namespace Sys2Proof.Machine

/-- Inversion of `onNext`: it neither makes a next state out of a stop nor loses the one it changes. -/
theorem onNext_eq_next {f : State → State} {r : Result} {t : State} (h : onNext f r = .next t) :
    ∃ u, r = .next u ∧ t = f u := by
  cases r with
  | next u => cases h; exact ⟨u, rfl, rfl⟩
  | fault => cases h
  | refused => cases h

theorem loadThen_font {s t : State} {i : Instr} {n : Nat} {k : List Byte → State}
    (h : loadThen s i n k = .next t) (hk : ∀ bytes, (k bytes).font = s.font) : t.font = s.font := by
  obtain ⟨-, e⟩ | ⟨-, e⟩ := loadThen_cases s i n k <;> cases e.symm.trans h
  · exact hk _
  · exact State.haltWith_font ..

theorem storeThenAdvance_font {s t : State} {i : Instr} {bytes : List Byte}
    (h : storeThenAdvance s i bytes = .next t) : t.font = s.font := by
  obtain ⟨-, e⟩ | ⟨-, e⟩ := storeThenAdvance_cases s i bytes <;> cases e.symm.trans h
  · rfl
  · exact State.haltWith_font ..

theorem execRet_font {s t : State} (h : execRet s = .next t) : t.font = s.font := by
  obtain hsp | hsp := Nat.eq_zero_or_pos s.sp.val
  · simp only [execRet, s.pop_none hsp, raise] at h
    cases h; exact State.haltWith_font ..
  · simp only [execRet, s.pop_some hsp] at h
    cases h; rfl

theorem execCall_font {nnn : BitVec 12} {s t : State} (h : execCall nnn s = .next t) : t.font = s.font := by
  obtain hsp | hsp := Nat.lt_or_eq_of_le (Nat.le_of_lt_succ s.sp.isLt)
  · simp only [execCall, s.push_some s.npc hsp] at h
    cases h; rfl
  · simp only [execCall, s.push_none s.npc hsp, raise] at h
    cases h; exact State.haltWith_font ..

/-- Only the stack and the memory instructions have more than one outcome; every other one writes fields that are not FONT. -/
theorem exec_font {i : Instr} {s t : State} (h : exec i s = .next t) : t.font = s.font := by
  cases i with
  | ret => exact execRet_font h
  | call nnn => exact execCall_font h
  | drw x y n => exact loadThen_font h fun _ => rfl
  | ldBlock x => exact loadThen_font h fun _ => rfl
  | ldB x => exact storeThenAdvance_font h
  | stBlock x => exact storeThenAdvance_font h
  | _ => cases h; rfl

theorem stepEvent_font {s t : State} (h : stepEvent s = .next t) : t.font = s.font := by
  obtain ⟨-, e⟩ | ⟨-, -, e⟩ | ⟨-, -, e⟩ | ⟨-, -, _, -, e⟩ | ⟨-, -, _, -, e⟩ := stepEvent_cases s
  case inr.inr.inr.inr => exact exec_font (e.symm.trans h)
  all_goals cases e.symm.trans h; rfl

@[simp] theorem keyEvent_font (code : Fin 16) (down : Bool) (s : State) : (keyEvent code down s).font = s.font := by
  obtain ⟨_, -, -, -, e⟩ | ⟨-, e⟩ := keyEvent_cases s code down <;> rw [e]

@[simp] theorem loadEvent_font (image : List Byte) (s : State) : (loadEvent image s).font = s.font := by
  obtain ⟨-, e⟩ | ⟨-, e⟩ := loadEvent_cases image s <;> rw [e]
  exact resetEvent_font s

theorem applyEvent_font {e : HostEvent} {s t : State} (h : applyEvent e s = .next t) : t.font = s.font := by
  cases e with
  | reset => cases h; exact resetEvent_font s
  | load image => cases h; exact loadEvent_font image s
  | step rnd =>
    obtain ⟨u, hu, rfl⟩ := onNext_eq_next h
    exact (stepEvent_font hu :)
  | tick => cases h; rfl
  | key code down => cases h; exact keyEvent_font code down s

/-- A step is the STEP event or the oldest queued event, and neither changes FONT. -/
theorem step_font {s t : State} (h : step s = .next t) : t.font = s.font := by
  cases he : s.events with
  | nil => simp only [step, he] at h; exact stepEvent_font h
  | cons e rest => simp only [step, he] at h; exact (applyEvent_font h :)

/-- Settles O58, by the layers of a step: memory and stack operations, instructions, STEP, the other host events. -/
theorem fontParameterNeverChanges : Obligations.FontParameterNeverChanges :=
  fun _ _ => step_font

end Sys2Proof.Machine
end

section
/-! PROOFS. The decoder against the encoder and the opcode table (spec/30_encoding.md rules R71 to R77). -/

namespace Sys2Proof

/-! ### A word is each format filled in with its own fields (R71, R72) -/

theorem fieldOp_lt (w : Word) : fieldOp w < 16 := by
  rw [fieldOp_eq]; omega

theorem formatA_fields (w : Word) : formatA (fieldOp w) (fieldNnn w) = w := by
  apply BitVec.eq_of_toNat_eq
  rw [formatA_toNat _ _ (fieldOp_lt w), fieldOp_eq, fieldNnn_toNat]
  omega

theorem formatXK_fields (w : Word) : formatXK (fieldOp w) (fieldX w) (fieldKk w) = w := by
  apply BitVec.eq_of_toNat_eq
  rw [formatXK_toNat _ _ _ (fieldOp_lt w), fieldOp_eq, fieldX_val, fieldKk_toNat]
  omega

theorem formatXYN_fields (w : Word) : formatXYN (fieldOp w) (fieldX w) (fieldY w) (fieldN w).val = w := by
  apply BitVec.eq_of_toNat_eq
  rw [formatXYN_toNat _ _ _ _ (fieldOp_lt w) (fieldN w).isLt, fieldOp_eq, fieldX_val, fieldY_val, fieldN_val]
  omega

theorem formatX_fields (w : Word) : formatX (fieldOp w) (fieldX w) (fieldKk w).toNat = w := by
  apply BitVec.eq_of_toNat_eq
  rw [formatX_toNat _ _ _ (fieldOp_lt w) (fieldKk w).isLt, fieldOp_eq, fieldX_val, fieldKk_toNat]
  omega

/-! ### A word the decoder accepts is the word of its instruction -/

theorem encode_of_decodeFamily0 {w : Word} {i : Instr} (h : decodeFamily0 w = .ok i) : encode i = w := by
  simp only [decodeFamily0] at h
  split at h
  · next hw => cases h; exact hw.symm
  · split at h
    · next hw => cases h; exact hw.symm
    · cases h

theorem encode_of_decodeFamily8 {w : Word} {i : Instr} (hop : fieldOp w = 8) (h : decodeFamily8 w = .ok i) : encode i = w := by
  have hw := formatXYN_fields w
  rw [hop] at hw
  simp only [decodeFamily8] at h
  split at h
  case h_10 => cases h
  all_goals
    next hn =>
      rw [hn] at hw
      cases h
      exact hw

theorem encode_of_decodeFamilyE {w : Word} {i : Instr} (hop : fieldOp w = 14) (h : decodeFamilyE w = .ok i) : encode i = w := by
  have hw := formatX_fields w
  rw [hop] at hw
  simp only [decodeFamilyE] at h
  split at h
  case h_3 => cases h
  all_goals
    next hk =>
      rw [hk] at hw
      cases h
      exact hw

theorem encode_of_decodeFamilyF {w : Word} {i : Instr} (hop : fieldOp w = 15) (h : decodeFamilyF w = .ok i) : encode i = w := by
  have hw := formatX_fields w
  rw [hop] at hw
  simp only [decodeFamilyF] at h
  split at h
  case h_10 => cases h
  all_goals
    next hk =>
      rw [hk] at hw
      cases h
      exact hw

/-- Family by family: each is one format whose fixed part the decoder has tested. -/
theorem encode_of_decode {w : Word} {i : Instr} (h : decode w = .ok i) : encode i = w := by
  have hA := formatA_fields w
  have hXK := formatXK_fields w
  have hXYN := formatXYN_fields w
  simp only [decode] at h
  split at h
  case h_1 => exact encode_of_decodeFamily0 h
  case h_9 hop => exact encode_of_decodeFamily8 hop h
  case h_15 hop => exact encode_of_decodeFamilyE hop h
  case h_16 =>
    have hlt := fieldOp_lt w
    exact encode_of_decodeFamilyF (by grind) h
  case h_2 hop | h_3 hop | h_11 hop | h_12 hop => rw [hop] at hA; cases h; exact hA
  case h_4 hop | h_5 hop | h_7 hop | h_8 hop | h_13 hop => rw [hop] at hXK; cases h; exact hXK
  case h_14 hop => rw [hop] at hXYN; cases h; exact hXYN
  case h_6 hop | h_10 hop =>
    split at h
    · next hn => rw [hop, hn] at hXYN; cases h; exact hXYN
    · cases h

/-! ### A word the decoder rejects is in no row of the table (R75) -/

theorem decodeFamily0_error {w : Word} {r : DecodeReject} (h : decodeFamily0 w = .error r) : w ≠ 0x00E0 ∧ w ≠ 0x00EE := by
  constructor <;> rintro rfl <;> cases h

theorem decodeFamily8_error {w : Word} {r : DecodeReject} (h : decodeFamily8 w = .error r) :
    7 < w.toNat % 16 ∧ w.toNat % 16 ≠ 0xE := by
  simp only [decodeFamily8, fieldN_val] at h
  split at h
  case h_10 => grind
  all_goals cases h

theorem decodeFamilyE_error {w : Word} {r : DecodeReject} (h : decodeFamilyE w = .error r) :
    w.toNat % 256 ≠ 0x9E ∧ w.toNat % 256 ≠ 0xA1 := by
  simp only [decodeFamilyE, fieldKk_toNat] at h
  split at h
  case h_3 h1 h2 => exact ⟨h1, h2⟩
  all_goals cases h

theorem decodeFamilyF_error {w : Word} {r : DecodeReject} (h : decodeFamilyF w = .error r) :
    w.toNat % 256 ∉ [0x07, 0x0A, 0x15, 0x18, 0x1E, 0x29, 0x33, 0x55, 0x65] := by
  simp only [decodeFamilyF, fieldKk_toNat] at h
  split at h
  case h_10 => simp only [List.mem_cons, List.not_mem_nil, or_false]; grind
  all_goals cases h

/-- The words the decoder rejects, family by family, as numbers. -/
theorem decode_error {w : Word} {r : DecodeReject} (h : decode w = .error r) :
    (w.toNat / 0x1000 = 0x0 ∧ w ≠ 0x00E0 ∧ w ≠ 0x00EE) ∨
    ((w.toNat / 0x1000 = 0x5 ∨ w.toNat / 0x1000 = 0x9) ∧ w.toNat % 16 ≠ 0) ∨
    (w.toNat / 0x1000 = 0x8 ∧ 7 < w.toNat % 16 ∧ w.toNat % 16 ≠ 0xE) ∨
    (w.toNat / 0x1000 = 0xE ∧ w.toNat % 256 ≠ 0x9E ∧ w.toNat % 256 ≠ 0xA1) ∨
    (w.toNat / 0x1000 = 0xF ∧ w.toNat % 256 ∉ [0x07, 0x0A, 0x15, 0x18, 0x1E, 0x29, 0x33, 0x55, 0x65]) := by
  simp only [decode, fieldOp_eq, fieldN_val] at h
  split at h
  case h_1 hop => exact .inl ⟨hop, decodeFamily0_error h⟩
  case h_9 hop => exact .inr (.inr (.inl ⟨hop, decodeFamily8_error h⟩))
  case h_15 hop => exact .inr (.inr (.inr (.inl ⟨hop, decodeFamilyE_error h⟩)))
  case h_16 =>
    have hlt : w.toNat / 0x1000 < 16 := fieldOp_eq w ▸ fieldOp_lt w
    exact .inr (.inr (.inr (.inr ⟨by grind, decodeFamilyF_error h⟩)))
  case h_6 hop | h_10 hop =>
    split at h
    · cases h
    · next hn => exact .inr (.inl ⟨by simp [hop], hn⟩)
  all_goals cases h

open Laws.FixedBits in
/-- No row of the table has the family and the low bits of a rejected word. -/
theorem legalWord_of_decode_error {w : Word} {r : DecodeReject} (h : decode w = .error r) : legalWord w = false := by
  refine Bool.eq_false_iff.2 fun hl => ?_
  have hF000 := fun p f => covers_iff ⟨p, f, 0xF000⟩ w 0 (by decide) rfl
  have hF00F := fun p f => covers_iff ⟨p, f, 0xF00F⟩ w 4 (by decide) rfl
  have hF0FF := fun p f => covers_iff ⟨p, f, 0xF0FF⟩ w 8 (by decide) rfl
  have hfam := decode_error h
  simp only [legalWord, opcodeTable, opcodeTableLow, opcodeTableMid, opcodeTableHigh, List.any_append, List.any_cons,
    List.any_nil, Bool.or_eq_true, covers_whole, hF000, hF00F, hF0FF, ← BitVec.toNat_inj,
    BitVec.reduceToNat, Bool.false_eq_true, or_false] at hl
  simp only [ne_eq, ← BitVec.toNat_inj, BitVec.reduceToNat, List.mem_cons, List.not_mem_nil, or_false, not_or] at hfam
  obtain h | h | h | h | h := hfam <;> omega

end Sys2Proof
end

section
/-! PROOFS. Everything an instruction can do: it takes the fault the table `faultOf` gives it, or it completes
(spec/60_exceptions.md rules R170 to R176). The register writers of spec/10_state.md (R21 to R30) are read off from that. -/

namespace Sys2Proof.Machine

/-! ### The fault an instruction takes -/

/-- The address a fault of an instruction records: the first offending one of its access at I, 0 for the stack's faults. -/
def faultAddr (s : State) (f : Fault) : Nat := if f = .addressOutOfRange then max s.i.toNat 0x1000 else 0

/-- The faults an instruction can take, and the state each is taken in. -/
theorem faultOf_cases {i : Instr} {s : State} {f : Fault} (h : faultOf i s = some f) :
    (f = .stackUnderflow ∧ i = .ret ∧ s.sp.val = 0) ∨ (f = .stackOverflow ∧ s.sp.val = 16) ∨ f = .addressOutOfRange := by
  cases i with
  | ret =>
    obtain ⟨hsp, ⟨⟩⟩ := Option.ite_none_right_eq_some.1 h
    exact .inl ⟨rfl, rfl, hsp⟩
  | call nnn =>
    obtain ⟨hsp, ⟨⟩⟩ := Option.ite_none_right_eq_some.1 h
    exact .inr (.inl ⟨rfl, hsp⟩)
  | drw _ _ _ | ldB _ | stBlock _ | ldBlock _ =>
    obtain ⟨-, ⟨⟩⟩ := Option.ite_none_right_eq_some.1 h
    exact .inr (.inr rfl)
  | _ => cases h

@[simp] theorem bcdDigits_length (b : Byte) : (bcdDigits b).length = 3 := rfl

theorem loadThen_overrun {s : State} {n : Nat} (i : Instr) (k : List Byte → State) (hn : 0 < n) (h : 0x1000 < s.i.toNat + n) :
    loadThen s i n k = .next (faulted s .addressOutOfRange (encode i) (faultAddr s .addressOutOfRange)) := by
  obtain ⟨hf, -⟩ | ⟨-, e⟩ := loadThen_cases s i n k
  · rw [accessFits_iff] at hf; omega
  · exact e

theorem storeThenAdvance_overrun {s : State} {bytes : List Byte} (i : Instr) (hn : 0 < bytes.length)
    (h : 0x1000 < s.i.toNat + bytes.length) :
    storeThenAdvance s i bytes = .next (faulted s .addressOutOfRange (encode i) (faultAddr s .addressOutOfRange)) := by
  obtain ⟨hf, -⟩ | ⟨-, e⟩ := storeThenAdvance_cases s i bytes
  · rw [accessFits_iff] at hf; omega
  · exact e

/-- R66, R176: the fault of the table is the one taken. -/
theorem exec_of_faultOf {i : Instr} {s : State} {f : Fault} (h : faultOf i s = some f) :
    exec i s = .next (faulted s f (encode i) (faultAddr s f)) := by
  cases i with
  | ret =>
    obtain ⟨hsp, ⟨⟩⟩ := Option.ite_none_right_eq_some.1 h
    simp only [exec, execRet, s.pop_none hsp]
    rfl
  | call nnn =>
    obtain ⟨hsp, ⟨⟩⟩ := Option.ite_none_right_eq_some.1 h
    simp only [exec, execCall, s.push_none s.npc hsp]
    rfl
  | drw x y n =>
    obtain ⟨hi, ⟨⟩⟩ := Option.ite_none_right_eq_some.1 h
    exact loadThen_overrun _ _ (by omega) (by omega)
  | ldBlock x =>
    obtain ⟨hi, ⟨⟩⟩ := Option.ite_none_right_eq_some.1 h
    exact loadThen_overrun _ _ (by omega) (by omega)
  | ldB x =>
    obtain ⟨hi, ⟨⟩⟩ := Option.ite_none_right_eq_some.1 h
    exact storeThenAdvance_overrun _ (by simp) (by rw [bcdDigits_length]; omega)
  | stBlock x =>
    obtain ⟨hi, ⟨⟩⟩ := Option.ite_none_right_eq_some.1 h
    exact storeThenAdvance_overrun _ (by simp) (by rw [regBlock_length]; omega)
  | _ => cases h

/-! ### An instruction that completes -/

/-- From `s` to `t` the instruction completes. The ones that can fault say the guard they passed; any other one has no guard, and its
meaning is its whole answer. -/
def Completes (i : Instr) (s t : State) : Prop :=
  match i with
  | .ret => ∃ h : 0 < s.sp.val, t = { s with sp := ⟨s.sp.val - 1, by omega⟩, pc := s.stack[s.sp.val - 1]'(by omega) }
  | .call nnn =>
    ∃ h : s.sp.val < 16, t = { s with stack := s.stack.set s.sp.val s.npc, sp := ⟨s.sp.val + 1, by omega⟩, pc := zextNnn nnn }
  | .drw x y n =>
    accessFits s.i.toNat n.val = true ∧
      let drawn := drawRows (s.reg x).toNat (s.reg y).toNat (s.mem.readRun s.font s.i.toNat n.val) (s.disp, false)
      t = ({ s with disp := drawn.1 }.setReg vf (flagByte drawn.2)).advance
  | .ldB x =>
    accessFits s.i.toNat (bcdDigits (s.reg x)).length = true ∧
      t = { s with mem := s.mem.writeRun s.font s.i.toNat (bcdDigits (s.reg x)), pc := s.npc }
  | .stBlock x =>
    accessFits s.i.toNat (regBlock s x).length = true ∧
      t = { s with mem := s.mem.writeRun s.font s.i.toNat (regBlock s x), pc := s.npc }
  | .ldBlock x =>
    accessFits s.i.toNat (x.val + 1) = true ∧
      t = { s with v := writeRegs 0 (s.mem.readRun s.font s.i.toNat (x.val + 1)) s.v, pc := s.npc }
  | i => exec i s = .next t

theorem loadThen_next {s t : State} {i : Instr} {n : Nat} {k : List Byte → State} (hfit : ¬ (0 < n ∧ 0x1000 < s.i.toNat + n))
    (h : loadThen s i n k = .next t) : accessFits s.i.toNat n = true ∧ t = k (s.mem.readRun s.font s.i.toNat n) := by
  obtain ⟨hf, e⟩ | ⟨hf, -⟩ := loadThen_cases s i n k
  · cases e.symm.trans h; exact ⟨hf, rfl⟩
  · rw [(accessFits_iff _ _).2 (by omega)] at hf; cases hf

theorem storeThenAdvance_next {s t : State} {i : Instr} {bytes : List Byte}
    (hfit : s.i.toNat + bytes.length ≤ 0x1000) (h : storeThenAdvance s i bytes = .next t) :
    accessFits s.i.toNat bytes.length = true ∧ t = { s with mem := s.mem.writeRun s.font s.i.toNat bytes, pc := s.npc } := by
  obtain ⟨hf, e⟩ | ⟨hf, -⟩ := storeThenAdvance_cases s i bytes
  · cases e.symm.trans h; exact ⟨hf, rfl⟩
  · rw [(accessFits_iff _ _).2 (by omega)] at hf; cases hf

theorem completes_of_exec {i : Instr} {s t : State} (hf : faultOf i s = none) (h : exec i s = .next t) : Completes i s t := by
  cases i with
  | ret =>
    have hsp : s.sp.val ≠ 0 := by simpa [faultOf] using hf
    simp only [exec, execRet, s.pop_some (by omega)] at h
    cases h
    exact ⟨by omega, rfl⟩
  | call nnn =>
    have hsp : s.sp.val ≠ 16 := by simpa [faultOf] using hf
    simp only [exec, execCall, s.push_some s.npc (by omega)] at h
    cases h
    exact ⟨by omega, rfl⟩
  | drw x y n =>
    have hfit : 1 ≤ n.val → s.i.toNat + n.val ≤ 0x1000 := by simpa [faultOf] using hf
    exact loadThen_next (by omega) h
  | ldBlock x =>
    have hfit : ¬0xFFF < s.i.toNat + x.val := by simpa [faultOf] using hf
    exact loadThen_next (by omega) h
  | ldB x =>
    have hfit : ¬0xFFF < s.i.toNat + 2 := by simpa [faultOf] using hf
    exact storeThenAdvance_next (by rw [bcdDigits_length]; omega) h
  | stBlock x =>
    have hfit : ¬0xFFF < s.i.toNat + x.val := by simpa [faultOf] using hf
    exact storeThenAdvance_next (by rw [regBlock_length]; omega) h
  | _ => exact h

/-- Everything an instruction can do: take the fault of the table, with nothing of it written, or complete. -/
theorem exec_cases {i : Instr} {s t : State} (h : exec i s = .next t) :
    (∃ f, faultOf i s = some f ∧ t = faulted s f (encode i) (faultAddr s f)) ∨ (faultOf i s = none ∧ Completes i s t) := by
  cases hf : faultOf i s with
  | some f => cases (exec_of_faultOf hf).symm.trans h; exact .inl ⟨f, rfl, rfl⟩
  | none => exact .inr ⟨rfl, completes_of_exec hf h⟩

/-! ### What each register's writers leave alone -/

section
variable {i : Instr} {s t : State}

/-- No instruction that completes writes the keys, the run state, the fault record, FONT, or what the host holds of its own. -/
theorem Completes.frame (h : Completes i s t) :
    t = { s with
      v := t.v, i := t.i, pc := t.pc, sp := t.sp, stack := t.stack, dt := t.dt, st := t.st, disp := t.disp, wait := t.wait
      mem := t.mem, rnd := t.rnd, rndDraws := t.rndDraws } := by
  cases i with
  | ret | call _ | drw _ _ _ | ldB _ | stBlock _ | ldBlock _ => obtain ⟨-, rfl⟩ := h; rfl
  | _ => cases h; rfl

/-- R21: the general registers. -/
theorem Completes.reg (h : Completes i s t) {r : Reg} (hr : writesReg i r = false) : t.reg r = s.reg r := by
  cases i with
  | ret | call _ | ldB _ | stBlock _ => obtain ⟨-, rfl⟩ := h; rfl
  | ldImm _ _ | addImm _ _ | ldReg _ _ | orReg _ _ | andReg _ _ | xorReg _ _ | rnd _ _ | ldVxDt _ =>
    cases h
    exact State.reg_setReg_other _ _ _ _ (by simpa [writesReg] using hr)
  | addReg _ _ | subReg _ _ | shr _ _ | subnReg _ _ | shl _ _ =>
    cases h
    simp only [writesReg, Bool.or_eq_false_iff, beq_eq_false_iff_ne] at hr
    rw [State.reg_writeFlagged, if_neg hr.1, if_neg hr.2]
  | drw _ _ _ =>
    obtain ⟨-, rfl⟩ := h
    exact State.reg_setReg_other _ _ _ _ (by simpa [writesReg] using hr)
  | ldBlock x =>
    obtain ⟨-, rfl⟩ := h
    simp only [writesReg, decide_eq_false_iff_not, Fin.not_le, Fin.lt_def] at hr
    simp only [State.reg, writeRegs_getElem, Memory.readRun_length]
    exact dif_neg (by omega)
  | _ => cases h; rfl

/-- R23: the index register. -/
theorem Completes.index (h : Completes i s t) (hi : writesIndex i = false) : t.i = s.i := by
  cases i with
  | ldI _ | addI _ | ldF _ => cases hi
  | ret | call _ | drw _ _ _ | ldB _ | stBlock _ | ldBlock _ => obtain ⟨-, rfl⟩ := h; rfl
  | _ => cases h; rfl

/-- R25: the stack. -/
theorem Completes.stack (h : Completes i s t) (hi : i ≠ .ret ∧ ∀ nnn, i ≠ .call nnn) : t.sp = s.sp ∧ t.stack = s.stack := by
  cases i with
  | ret => exact absurd rfl hi.1
  | call nnn => exact absurd rfl (hi.2 nnn)
  | drw _ _ _ | ldB _ | stBlock _ | ldBlock _ => obtain ⟨-, rfl⟩ := h; exact ⟨rfl, rfl⟩
  | _ => cases h; exact ⟨rfl, rfl⟩

/-- R26: the delay timer. -/
theorem Completes.dt (h : Completes i s t) (hi : ∀ x, i ≠ .ldDtVx x) : t.dt = s.dt := by
  cases i with
  | ldDtVx x => exact absurd rfl (hi x)
  | ret | call _ | drw _ _ _ | ldB _ | stBlock _ | ldBlock _ => obtain ⟨-, rfl⟩ := h; rfl
  | _ => cases h; rfl

/-- R27: the sound timer. -/
theorem Completes.st (h : Completes i s t) (hi : ∀ x, i ≠ .ldStVx x) : t.st = s.st := by
  cases i with
  | ldStVx x => exact absurd rfl (hi x)
  | ret | call _ | drw _ _ _ | ldB _ | stBlock _ | ldBlock _ => obtain ⟨-, rfl⟩ := h; rfl
  | _ => cases h; rfl

/-- R30: the pending wait. -/
theorem Completes.wait (h : Completes i s t) (hi : ∀ x, i ≠ .ldVxK x) : t.wait = s.wait := by
  cases i with
  | ldVxK x => exact absurd rfl (hi x)
  | ret | call _ | drw _ _ _ | ldB _ | stBlock _ | ldBlock _ => obtain ⟨-, rfl⟩ := h; rfl
  | _ => cases h; rfl

/-- R29: the key flags. -/
theorem Completes.key (h : Completes i s t) : t.key = s.key := by rw [h.frame]

end

/-- Settles O54: a fault writes no register, and an instruction that completes only those of the table. -/
theorem generalRegisterWriters : Obligations.GeneralRegisterWriters := by
  intro i s t r h hr
  obtain ⟨f, -, rfl⟩ | ⟨hf, hc⟩ := exec_cases h
  · rfl
  · exact hc.reg (hr.resolve_right (by simp [hf]))

/-- Settles O55: a fault writes none of these registers, and of an instruction that completes each has its own lemma. -/
theorem specialRegisterWriters : Obligations.SpecialRegisterWriters := by
  intro i s t h
  obtain ⟨f, -, rfl⟩ | ⟨hf, hc⟩ := exec_cases h
  · exact ⟨fun _ => rfl, fun _ => ⟨rfl, rfl⟩, fun _ => rfl, fun _ => rfl, fun _ => rfl, rfl⟩
  · exact ⟨hc.index, fun hi => hc.stack (hi.resolve_right (by simp [hf])), hc.dt, hc.st, hc.wait, hc.key⟩

end Sys2Proof.Machine
end

section
/-! PROOFS. The clock cycles of the ports (spec/10_state.md rule R39): what one cycle queues, and an image streamed over many. -/

namespace Sys2Proof.Machine

theorem PortIn.completesLoad_eq_false_iff (p : PortIn) : p.completesLoad = false ↔ p.ldValid = false ∨ p.ldLast = false :=
  Bool.and_eq_false_iff

section
variable {p : PortIn} (s : State)

theorem State.clockCycle_of_reset (hr : p.reset = true) :
    s.clockCycle p = { s with events := s.events ++ [.reset], ldStream := [] } := by
  obtain ⟨-, e⟩ | ⟨hr', -⟩ | ⟨hr', -⟩ := s.clockCycle_cases p
  · exact e
  all_goals cases hr.symm.trans hr'

theorem State.clockCycle_of_completesLoad (hr : p.reset = false) (hc : p.completesLoad = true) :
    s.clockCycle p = { s with events := s.events ++ [.load (s.ldStream ++ [p.ldData])], ldStream := [] } := by
  obtain ⟨hr', -⟩ | ⟨-, -, e⟩ | ⟨-, hc', -⟩ := s.clockCycle_cases p
  · cases hr.symm.trans hr'
  · exact e
  · cases hc.symm.trans hc'

theorem State.clockCycle_of_strobes (hr : p.reset = false) (hc : p.completesLoad = false) :
    s.clockCycle p = { s with events := s.events ++ p.strobes, ldStream := s.ldStream ++ p.imageByte.toList } := by
  obtain ⟨hr', -⟩ | ⟨-, hc', -⟩ | ⟨-, -, e⟩ := s.clockCycle_cases p
  · cases hr.symm.trans hr'
  · cases hc.symm.trans hc'
  · exact e

end

theorem PortIn.append_imageByte (p : PortIn) (bs : List Byte) :
    bs ++ p.imageByte.toList = if p.ldValid then bs ++ [p.ldData] else bs := by
  cases hv : p.ldValid <;> simp [PortIn.imageByte, hv]

/-- The strobes of a cycle are KEY, STEP and TICK events. -/
theorem PortIn.strobes_no_restart {p : PortIn} {e : HostEvent} (h : e ∈ p.strobes) : e ≠ .reset ∧ ∀ image, e ≠ .load image := by
  simp only [PortIn.strobes, List.mem_append] at h
  obtain (h | h) | h := h <;>
  · split at h
    · cases List.mem_singleton.1 h; exact ⟨nofun, nofun⟩
    · cases h

/-- Cycles with neither a reset nor a last byte queue their strobes in order and gather the image bytes they carry. -/
theorem State.clockCycles_of_streaming (ps : List PortIn) (s : State) (hps : ∀ q ∈ ps, q.reset = false ∧ q.completesLoad = false) :
    s.clockCycles ps =
      { s with events := s.events ++ ps.flatMap PortIn.strobes, ldStream := s.ldStream ++ ps.filterMap PortIn.imageByte } := by
  induction ps generalizing s with
  | nil => simp
  | cons p ps ih =>
    obtain ⟨⟨hr, hc⟩, hps⟩ := List.forall_mem_cons.1 hps
    rw [State.clockCycles_cons, ih _ hps, s.clockCycle_of_strobes hr hc]
    cases hb : p.imageByte <;> simp [hb]

/-- Settles O52: the three cases of a clock cycle. -/
theorem cycleAppliesEventsInOrder : Obligations.CycleAppliesEventsInOrder := by
  intro s p
  refine ⟨s.clockCycle_of_reset, fun hr hv hl => ?_, fun hr hc => ⟨_, _, _, rfl, rfl, rfl, ?_⟩⟩
  · exact s.clockCycle_of_completesLoad hr (by rw [PortIn.completesLoad, hv, hl]; rfl)
  · rw [s.clockCycle_of_strobes hr (p.completesLoad_eq_false_iff.2 hc), PortIn.append_imageByte]
    simp only [PortIn.strobes, List.append_assoc]

/-- Settles O53, by induction on the cycles before the last byte. -/
theorem streamedImageIsOneLoad : Obligations.StreamedImageIsOneLoad := by
  intro ps p s hs hps hr hv hl
  refine ⟨fun e he => ?_, ?_⟩
  · obtain ⟨q, -, hq⟩ := List.mem_flatMap.1 he
    exact PortIn.strobes_no_restart hq
  · have hstream := s.clockCycles_of_streaming ps fun q hq => ⟨(hps q hq).1, q.completesLoad_eq_false_iff.2 (hps q hq).2⟩
    have hc : p.completesLoad = true := by rw [PortIn.completesLoad, hv, hl]; rfl
    calc s.clockCycles (ps ++ [p])
        = (s.clockCycles ps).clockCycle p := List.foldl_concat ..
      _ = _ := by rw [State.clockCycle_of_completesLoad _ hr hc, hstream, hs]; rfl

end Sys2Proof.Machine
end

section
/-! PROOFS. The invariant of spec/10_state.md (R24, R25, R42): it holds at reset, and every event and instruction keeps it. -/

namespace Sys2Proof.Machine

/-! ### Reset -/

@[simp] theorem State.reg_resetWith (font : Font) (r : Reg) : (State.resetWith font).reg r = 0 := by
  simp [State.reg, State.resetWith]

@[simp] theorem State.keyDown_resetWith (font : Font) (k : Fin 16) : (State.resetWith font).keyDown k = false := by
  simp [State.keyDown, State.resetWith]

/-- Settles O50: each field of the reset state. -/
theorem resetEventRestoresResetState : Obligations.ResetEventRestoresResetState := by
  intro s
  refine ⟨_, rfl, State.reg_resetWith s.font, rfl, rfl, rfl, rfl, rfl, Display.cell_clear, State.keyDown_resetWith s.font, rfl, rfl,
    rfl, fun a ha => ?_, fun a ha => ?_, rfl⟩
  · exact dif_pos ha
  · exact dif_neg (Nat.not_lt.2 ha)

/-! ### States that meet the invariant by the fields they share with others -/

/-- A state at reset but for its memory and the fields that are the model's own. -/
theorem Inv.restart {font : Font} {m : Memory} (hm : m.wf font = true) (es : List HostEvent) (n : Nat) (bs : List Byte) :
    Inv { State.resetWith font with mem := m, events := es, rndDraws := n, ldStream := bs } where
  memCanonical := hm
  pcBound := show (0x200 : Addr).toNat ≤ 0x10FE by decide
  stackBound _ hk := absurd hk (Nat.not_lt_zero _)
  waitAtFx0A := nofun
  haltedRecord := nofun
  runningRecord _ := rfl

/-- Settles O59. -/
theorem invariantAtReset : Obligations.InvariantAtReset :=
  ⟨Inv.restart Memory.nil_wf .., fun _ => Inv.restart Memory.nil_wf ..⟩

section
variable {s t : State}

/-- The fields the invariant does not speak of. -/
theorem Inv.of_unread (h : Inv s)
    (ht : t = { s with
      v := t.v, i := t.i, dt := t.dt, st := t.st, disp := t.disp, key := t.key
      events := t.events, rnd := t.rnd, rndDraws := t.rndDraws, ldError := t.ldError, ldStream := t.ldStream }) : Inv t := by
  rw [ht]
  exact ⟨h.memCanonical, h.pcBound, h.stackBound, h.waitAtFx0A, h.haltedRecord, h.runningRecord⟩

/-- A core that runs and does not wait. -/
theorem Inv.of_ready (hready : t.Ready) (hmem : t.mem.wf t.font = true) (hpc : t.pc.toNat ≤ 0x10FE)
    (hstack : ∀ k : Fin 16, k.val < t.sp.val → 0x002 ≤ t.stack[k.val].toNat ∧ t.stack[k.val].toNat ≤ 0x1000)
    (hrec : t.faultRecord = ⟨0, 0, 0, 0⟩) : Inv t := by
  obtain ⟨hrun, hwait⟩ := hready
  refine ⟨hmem, hpc, hstack, fun x hx => ?_, fun hh => ?_, fun _ => hrec⟩
  · cases hwait.symm.trans hx
  · cases hrun.symm.trans hh

/-- A core that took a fault. -/
theorem Inv.haltWith (h : Inv s) (hwait : s.wait = none) {f : Fault} {w : Word} {a : Addr}
    (hrec : FaultRecordOk (s.haltWith f w a)) : Inv (s.haltWith f w a) where
  memCanonical := h.memCanonical
  pcBound := h.pcBound
  stackBound := h.stackBound
  waitAtFx0A _ hx := by cases hwait.symm.trans hx
  haltedRecord _ := hrec
  runningRecord := nofun

/-! ### The program counter -/

theorem State.npc_toNat (h : s.pc.toNat ≤ 0x10FE) : s.npc.toNat = s.pc.toNat + 2 := by
  simp only [State.npc, BitVec.toNat_add, BitVec.reduceToNat]
  omega

theorem zextNnn_toNat (nnn : BitVec 12) : (zextNnn nnn).toNat = nnn.toNat :=
  BitVec.toNat_setWidth_of_le (by decide)

theorem offsetTarget_toNat_le (s : State) (nnn : BitVec 12) : (offsetTarget s nnn).toNat ≤ 0x10FE := by
  have h1 := nnn.isLt
  have h2 := (s.reg 0).isLt
  simp only [offsetTarget, zextNnn, zextByte, BitVec.toNat_add, BitVec.toNat_setWidth]
  omega

/-- Where an instruction that completes can leave PC. -/
theorem Completes.pc_cases {i : Instr} (h : Completes i s t) :
    t.pc = s.pc ∨ t.pc = s.npc ∨ t.pc = s.npc + 2 ∨ (∃ nnn, t.pc = zextNnn nnn) ∨ (∃ nnn, t.pc = offsetTarget s nnn) ∨
      ∃ k : Fin 16, k.val < s.sp.val ∧ t.pc = s.stack[k.val] := by
  cases i with
  | ret =>
    obtain ⟨hsp, rfl⟩ := h
    exact .inr (.inr (.inr (.inr (.inr ⟨⟨s.sp.val - 1, by omega⟩, Nat.sub_one_lt_of_lt hsp, rfl⟩))))
  | jp nnn => cases h; exact .inr (.inr (.inr (.inl ⟨nnn, rfl⟩)))
  | call nnn => obtain ⟨-, rfl⟩ := h; exact .inr (.inr (.inr (.inl ⟨nnn, rfl⟩)))
  | jpV0 nnn => cases h; exact .inr (.inr (.inr (.inr (.inl ⟨nnn, rfl⟩))))
  | seImm _ _ | sneImm _ _ | seReg _ _ | sneReg _ _ | skp _ | sknp _ =>
    cases h
    rw [State.skipIf_pc]
    split
    · exact .inr (.inr (.inl rfl))
    · exact .inr (.inl rfl)
  | drw _ _ _ | ldB _ | stBlock _ | ldBlock _ => obtain ⟨-, rfl⟩ := h; exact .inr (.inl rfl)
  | ldVxK _ => cases h; exact .inl rfl
  | _ => cases h; exact .inr (.inl rfl)

/-- R24: the largest value any instruction can put into PC. -/
theorem Completes.pc_le {i : Instr} (h : Completes i s t) (hinv : Inv s) (hpc : s.pc.toNat ≤ 0xFFE) : t.pc.toNat ≤ 0x10FE := by
  have hnpc := State.npc_toNat hinv.pcBound
  obtain e | e | e | ⟨nnn, e⟩ | ⟨nnn, e⟩ | ⟨k, hk, e⟩ := h.pc_cases <;> rw [e]
  · exact hinv.pcBound
  · omega
  · rw [BitVec.toNat_add, hnpc]; simp only [BitVec.reduceToNat]; omega
  · have := nnn.isLt
    rw [zextNnn_toNat]; omega
  · exact offsetTarget_toNat_le s nnn
  · have := hinv.stackBound k hk
    omega

/-! ### The stack and the memory -/

theorem Completes.stackBound {i : Instr} (h : Completes i s t) (hinv : Inv s) (hpc : s.pc.toNat ≤ 0xFFE) (k : Fin 16)
    (hk : k.val < t.sp.val) : 0x002 ≤ t.stack[k.val].toNat ∧ t.stack[k.val].toNat ≤ 0x1000 := by
  cases i with
  | ret =>
    obtain ⟨hsp, rfl⟩ := h
    exact hinv.stackBound k (Nat.lt_of_lt_of_le hk (Nat.sub_le ..))
  | call nnn =>
    obtain ⟨hsp, rfl⟩ := h
    have hnpc := State.npc_toNat hinv.pcBound
    simp only [Vector.getElem_set]
    split
    · omega
    · exact hinv.stackBound k (by simp only at hk; omega)
  | _ =>
    obtain ⟨hsp, hstack⟩ := h.stack ⟨nofun, nofun⟩
    rw [hsp] at hk
    rw [hstack]
    exact hinv.stackBound k hk

/-- Only a store writes memory, and it stores its whole run or nothing. -/
theorem Completes.mem_cases {i : Instr} (h : Completes i s t) :
    t.mem = s.mem ∨
      ∃ bytes : List Byte, s.i.toNat + bytes.length ≤ 0x1000 ∧ t.mem = s.mem.writeRun s.font s.i.toNat bytes := by
  cases i with
  | ldB x =>
    obtain ⟨hfit, rfl⟩ := h
    exact .inr ⟨_, ((accessFits_iff ..).1 hfit).resolve_left (by simp), rfl⟩
  | stBlock x =>
    obtain ⟨hfit, rfl⟩ := h
    exact .inr ⟨_, ((accessFits_iff ..).1 hfit).resolve_left (by simp), rfl⟩
  | ret | call _ | drw _ _ _ | ldBlock _ => obtain ⟨-, rfl⟩ := h; exact .inl rfl
  | _ => cases h; exact .inl rfl

theorem Completes.font {i : Instr} (h : Completes i s t) : t.font = s.font := by rw [h.frame]

theorem Completes.mem_wf {i : Instr} (h : Completes i s t) (hm : s.mem.wf s.font = true) : t.mem.wf t.font = true := by
  rw [h.font]
  obtain e | ⟨bytes, hfit, e⟩ := h.mem_cases <;> rw [e]
  · exact hm
  · exact Memory.writeRun_wf _ _ _ hfit hm

/-! ### Instructions -/

/-- The record of a fault an instruction takes: FWORD is the encoding of the instruction, which is the word at PC. -/
theorem faultRecordOk_of_faultOf {i : Instr} {f : Fault} (hf : faultOf i s = some f) (hpc : s.pc.toNat ≤ 0xFFE)
    (hw : encode i = s.wordAt s.pc.toNat) : FaultRecordOk (faulted s f (encode i) (faultAddr s f)) := by
  refine ⟨rfl, ?_, ?_⟩
  · obtain ⟨rfl, rfl, hsp⟩ | ⟨rfl, hsp⟩ | rfl := faultOf_cases hf
    · exact .inr (.inr (.inl ⟨rfl, Fin.ext hsp, rfl, rfl⟩))
    · exact .inr (.inl ⟨rfl, Fin.ext hsp, rfl⟩)
    · refine .inr (.inr (.inr ⟨rfl, ?_⟩))
      exact (firstOffending_toNat s.i.toNat s.i.isLt).symm ▸ Nat.le_max_right ..
  · exact hw.trans (if_pos hpc).symm

/-- An instruction that completes leaves the core running; only Fx0A leaves it waiting, at that Fx0A. -/
theorem Completes.keeps_inv {i : Instr} (h : Completes i s t) (hinv : Inv s) (hready : s.Ready) (hpc : s.pc.toNat ≤ 0xFFE)
    (hw : encode i = s.wordAt s.pc.toNat) : Inv t := by
  obtain ⟨hrun, hwait⟩ := hready
  by_cases hK : ∃ x, i = .ldVxK x
  · obtain ⟨x, rfl⟩ := hK
    cases h
    refine ⟨hinv.memCanonical, hinv.pcBound, hinv.stackBound, fun y hy => ?_, hinv.haltedRecord, hinv.runningRecord⟩
    cases hy
    exact ⟨hrun, hpc, hw.symm⟩
  · have hwait' : t.wait = s.wait := h.wait (not_exists.1 hK)
    have hrun' : t.run = s.run := by rw [h.frame]
    have hrec : t.faultRecord = s.faultRecord := by rw [h.frame]; rfl
    exact Inv.of_ready ⟨hrun'.trans hrun, hwait'.trans hwait⟩ (h.mem_wf hinv.memCanonical) (h.pc_le hinv hpc)
      (h.stackBound hinv hpc) (hrec.trans (hinv.runningRecord hrun))

theorem exec_keeps_inv {i : Instr} (h : exec i s = .next t) (hinv : Inv s) (hready : s.Ready) (hpc : s.pc.toNat ≤ 0xFFE)
    (hw : encode i = s.wordAt s.pc.toNat) : Inv t := by
  obtain ⟨f, hf, rfl⟩ | ⟨-, hc⟩ := exec_cases h
  · exact hinv.haltWith hready.2 (faultRecordOk_of_faultOf hf hpc hw)
  · exact hc.keeps_inv hinv hready hpc hw

/-! ### The host's events -/

theorem stepEvent_keeps_inv (h : stepEvent s = .next t) (hinv : Inv s) : Inv t := by
  obtain ⟨-, e⟩ | ⟨-, -, e⟩ | ⟨hready, hpc, e⟩ | ⟨hready, hpc, r, hd, e⟩ | ⟨hready, hpc, i, hd, e⟩ := stepEvent_cases s
  case inr.inr.inr.inr => exact exec_keeps_inv (e.symm.trans h) hinv hready hpc (encode_of_decode hd)
  all_goals cases e.symm.trans h
  · exact hinv
  · exact hinv
  · refine hinv.haltWith hready.2 ⟨rfl, .inr (.inr (.inr ⟨rfl, ?_⟩)), (if_neg (Nat.not_le.2 hpc)).symm⟩
    exact (firstOffending_toNat s.pc.toNat s.pc.isLt).symm ▸ Nat.le_max_right ..
  · exact hinv.haltWith hready.2 ⟨rfl, .inl ⟨rfl, legalWord_of_decode_error hd, rfl⟩, (if_pos hpc).symm⟩

theorem stepWith_keeps_inv {rnd : Byte} (hinv : Inv s) (h : stepWith rnd s = .next t) : Inv t := by
  obtain ⟨u, hu, rfl⟩ := onNext_eq_next h
  exact (stepEvent_keeps_inv hu (hinv.of_unread rfl)).of_unread rfl

/-- A KEY event that ends a wait passes the Fx0A, which was fetched from at most 0xFFE. -/
theorem keyEvent_keeps_inv (hinv : Inv s) (code : Fin 16) (down : Bool) : Inv (keyEvent code down s) := by
  obtain ⟨x, hrun, hwait, -, e⟩ | ⟨-, e⟩ := keyEvent_cases s code down <;> rw [e]
  · obtain ⟨-, hpc, -⟩ := hinv.waitAtFx0A x hwait
    have hnpc := State.npc_toNat hinv.pcBound
    exact Inv.of_ready ⟨hrun, rfl⟩ hinv.memCanonical (by simp only; omega) hinv.stackBound (hinv.runningRecord hrun)
  · exact hinv.of_unread rfl

theorem loadEvent_keeps_inv (hinv : Inv s) (image : List Byte) : Inv (loadEvent image s) := by
  obtain ⟨hfit, e⟩ | ⟨-, e⟩ := loadEvent_cases image s <;> rw [e]
  · simp only [imageFits, Config.maxImage, decide_eq_true_eq] at hfit
    exact Inv.restart (Memory.writeRun_wf _ _ _ (by simp only [Config.progBase]; omega) Memory.nil_wf) ..
  · exact hinv.of_unread rfl

theorem applyEvent_keeps_inv {e : HostEvent} (hinv : Inv s) (h : applyEvent e s = .next t) : Inv t := by
  cases e with
  | reset => cases h; exact Inv.restart Memory.nil_wf ..
  | load image => cases h; exact loadEvent_keeps_inv hinv image
  | step rnd => exact stepWith_keeps_inv hinv h
  | tick => cases h; exact hinv.of_unread rfl
  | key code down => cases h; exact keyEvent_keeps_inv hinv code down

end

/-- Settles O60: a step is the STEP event or the oldest queued event, and each keeps the invariant. -/
theorem invariantKeptByEveryStep : Obligations.InvariantKeptByEveryStep := by
  intro s t hinv h
  cases he : s.events with
  | nil => simp only [step, he] at h; exact stepEvent_keeps_inv h hinv
  | cons e rest =>
    simp only [step, he] at h
    exact applyEvent_keeps_inv (hinv.of_unread rfl) h

end Sys2Proof.Machine
end

section
/-! PROOFS. Memory as the machine sees it (spec/20_memory.md rules R50 to R59): the canonical list is determined by its reads, and
MemRead and MemWrite check the whole range before they move a byte. -/

namespace Sys2Proof.Machine

/-! ### The canonical form (R50, R59) -/

section
variable {font : Font} {m m' rest : Memory} {lo lo' k : Nat} {b : Byte}

theorem Memory.canonicalFrom_cons_iff :
    Memory.canonicalFrom font lo ((k, b) :: rest) = true ↔
      lo ≤ k ∧ k < Config.memSize ∧ b ≠ unlisted font k ∧ Memory.canonicalFrom font (k + 1) rest = true := by
  simp only [Memory.canonicalFrom, Bool.and_eq_true, decide_eq_true_eq, bne_iff_ne, and_assoc]

theorem Memory.read_cons_same : Memory.read font ((k, b) :: rest) k = b := if_pos rfl

theorem Memory.read_cons_other {a : Nat} (h : k ≠ a) : Memory.read font ((k, b) :: rest) a = Memory.read font rest a := if_neg h

/-- The first cell of a canonical memory shows: a memory that lists only higher addresses reads otherwise there. -/
theorem Memory.read_head_ne (h : Memory.canonicalFrom font lo ((k, b) :: rest) = true) (h' : Memory.canonicalFrom font lo' m' = true)
    (hk : k < lo') : Memory.read font ((k, b) :: rest) k ≠ m'.read font k := by
  obtain ⟨-, -, hb, -⟩ := Memory.canonicalFrom_cons_iff.1 h
  rwa [Memory.read_cons_same, Memory.read_below m' lo' k h' hk]

/-- Two canonical memories in which every address reads the same are the same list: their first cells are, then what follows. -/
theorem Memory.eq_of_read_eq (h : Memory.canonicalFrom font lo m = true) (h' : Memory.canonicalFrom font lo' m' = true)
    (heq : ∀ a, m.read font a = m'.read font a) : m = m' := by
  induction m generalizing m' lo lo' with
  | nil =>
    cases m' with
    | nil => rfl
    | cons c' rest' => exact absurd (heq c'.1).symm (Memory.read_head_ne h' (lo' := c'.1 + 1) rfl (by omega))
  | cons c rest ih =>
    obtain ⟨k, b⟩ := c
    cases m' with
    | nil => exact absurd (heq k) (Memory.read_head_ne h (lo' := k + 1) rfl (by omega))
    | cons c' rest' =>
      obtain ⟨k', b'⟩ := c'
      obtain ⟨-, hk, hb, hrest⟩ := Memory.canonicalFrom_cons_iff.1 h
      obtain ⟨-, hk', hb', hrest'⟩ := Memory.canonicalFrom_cons_iff.1 h'
      obtain hlt | rfl | hgt := Nat.lt_trichotomy k k'
      · exact absurd (heq k) (Memory.read_head_ne h (Memory.canonicalFrom_cons_iff.2 ⟨Nat.le_refl k', hk', hb', hrest'⟩) hlt)
      · have hbb : b = b' := by simpa only [Memory.read_cons_same] using heq k
        have hreads : ∀ a, Memory.read font rest a = Memory.read font rest' a := fun a => by
          by_cases ha : a < k + 1
          · rw [Memory.read_below rest _ a hrest ha, Memory.read_below rest' _ a hrest' ha]
          · simpa only [Memory.read_cons_other (show k ≠ a by omega)] using heq a
        rw [hbb, ih hrest hrest' hreads]
      · exact absurd (heq k').symm
          (Memory.read_head_ne h' (Memory.canonicalFrom_cons_iff.2 ⟨Nat.le_refl k, hk, hb, hrest⟩) hgt)

end

/-- Settles O36, by induction on the two lists. -/
theorem canonicalMemoryIsDeterminedByReads : Obligations.CanonicalMemoryIsDeterminedByReads :=
  fun _ _ _ h h' => Memory.eq_of_read_eq h h'

/-! ### MemRead and MemWrite (R56, R57) -/

section
variable {font : Font} {m : Memory} {addr n : Nat} {bytes : List Byte}

theorem memRead_of_fits (h : addr + n ≤ 0x1000) : memRead font m addr n = .ok (m.readRun font addr n) :=
  if_pos ((accessFits_iff ..).2 (.inr h))

theorem memRead_overrun (hn : 0 < n) (h : 0x1000 < addr + n) : memRead font m addr n = .error (firstOffending addr) :=
  if_neg (by rw [accessFits_iff]; omega)

theorem memWrite_of_fits (h : addr + bytes.length ≤ 0x1000) : memWrite font m addr bytes = .ok (m.writeRun font addr bytes) :=
  if_pos ((accessFits_iff ..).2 (.inr h))

theorem memWrite_overrun (hn : 0 < bytes.length) (h : 0x1000 < addr + bytes.length) :
    memWrite font m addr bytes = .error (firstOffending addr) :=
  if_neg (by rw [accessFits_iff]; omega)

theorem Memory.readRun_writeRun (hm : m.wf font = true) (h : addr + bytes.length ≤ 0x1000) :
    (m.writeRun font addr bytes).readRun font addr bytes.length = bytes := by
  refine List.ext_getElem (Memory.readRun_length ..) fun k _ hk => ?_
  rw [Memory.readRun_getElem, Memory.read_writeRun_inside m addr k bytes h hm hk]

/-- What a MemWrite stored, a MemRead of as many bytes there returns; a run of no bytes fits at any address. -/
theorem memRead_of_memWrite {m' : Memory} (hm : m.wf font = true) (hw : memWrite font m addr bytes = .ok m') :
    memRead font m' addr bytes.length = .ok bytes := by
  obtain ⟨hfit, e⟩ | ⟨-, e⟩ := memWrite_cases (font := font) m addr bytes <;> cases e.symm.trans hw
  obtain hn | hfit := (accessFits_iff ..).1 hfit
  · rw [List.eq_nil_of_length_eq_zero hn]; rfl
  · rw [memRead_of_fits hfit, Memory.readRun_writeRun hm hfit]

end

/-- Settles O34: the range decides between the run's bytes and the first offending address. -/
theorem memReadChecksRange : Obligations.MemReadChecksRange := by
  intro font m addr n haddr
  refine ⟨fun hn hover => ?_, fun hn hfit => ?_, rfl, fun bytes m' hm hw => memRead_of_memWrite hm hw⟩
  · exact ⟨_, memRead_overrun hn (by omega), firstOffending_toNat addr (by omega)⟩
  · refine ⟨_, memRead_of_fits (by omega), Memory.readRun_length .., fun k hk => ?_⟩
    have hk' : k < (m.readRun font addr n).length := by rwa [Memory.readRun_length]
    rw [List.getElem?_eq_getElem hk', Memory.readRun_getElem]

/-- Settles O35: the range decides between the whole run and nothing. -/
theorem memWriteStoresWholeRun : Obligations.MemWriteStoresWholeRun := by
  intro font m addr bytes hm haddr hn
  refine ⟨fun hover => ?_, fun hfit => ?_⟩
  · exact ⟨_, memWrite_overrun hn (by omega), firstOffending_toNat addr (by omega)⟩
  · have hle : addr + bytes.length ≤ 0x1000 := by omega
    exact ⟨_, memWrite_of_fits hle, Memory.writeRun_wf m addr bytes hle hm,
      fun k hk => Memory.read_writeRun_inside m addr k bytes hle hm hk,
      fun a ha => Memory.read_writeRun_outside m addr a bytes hle hm ha⟩

end Sys2Proof.Machine
end

section
/-! PROOFS. Instructions against memory (spec/20_memory.md rules R58, R61, R66): which bytes one may change, which fault it takes, and
that the next fetch sees what was stored. -/

namespace Sys2Proof.Machine

/-! ### Every instruction answers a next state -/

theorem loadThen_answers (s : State) (i : Instr) (n : Nat) (k : List Byte → State) : ∃ t, loadThen s i n k = .next t := by
  obtain ⟨-, e⟩ | ⟨-, e⟩ := loadThen_cases s i n k <;> exact ⟨_, e⟩

theorem storeThenAdvance_answers (s : State) (i : Instr) (bytes : List Byte) : ∃ t, storeThenAdvance s i bytes = .next t := by
  obtain ⟨-, e⟩ | ⟨-, e⟩ := storeThenAdvance_cases s i bytes <;> exact ⟨_, e⟩

theorem execRet_answers (s : State) : ∃ t, execRet s = .next t := by
  unfold execRet
  split <;> exact ⟨_, rfl⟩

theorem execCall_answers (nnn : BitVec 12) (s : State) : ∃ t, execCall nnn s = .next t := by
  unfold execCall
  split <;> exact ⟨_, rfl⟩

theorem exec_answers (i : Instr) (s : State) : ∃ t, exec i s = .next t := by
  cases i with
  | ret => exact execRet_answers s
  | call nnn => exact execCall_answers nnn s
  | drw _ _ _ | ldBlock _ => exact loadThen_answers ..
  | ldB _ | stBlock _ => exact storeThenAdvance_answers ..
  | _ => exact ⟨_, rfl⟩

/-- Settles O48: the table's fault is the one taken, and an instruction that completes has the run state and the record in its frame. -/
theorem faultsAreExactAndPrecise : Obligations.FaultsAreExactAndPrecise := by
  refine fun i s => ⟨fun f hf => exec_of_faultOf hf, fun hf => ?_⟩
  obtain ⟨t, ht⟩ := exec_answers i s
  have hframe := (completes_of_exec hf ht).frame
  exact ⟨t, ht, by rw [hframe], by rw [hframe]; rfl⟩

/-! ### The bytes an instruction changes -/

section
variable {s t : State}

theorem sameBytesOutside_writeRun {bytes : List Byte} {pc : Addr} (hm : s.mem.wf s.font = true)
    (hfit : s.i.toNat + bytes.length ≤ 0x1000) :
    SameBytesOutside s.i.toNat bytes.length s { s with mem := s.mem.writeRun s.font s.i.toNat bytes, pc := pc } :=
  fun a ha => Memory.read_writeRun_outside s.mem s.i.toNat a bytes hfit hm ha

/-- R50, R58: only Fx33 and Fx55 write memory, and each only its run at I. -/
theorem Completes.sameBytesOutside {i : Instr} (h : Completes i s t) (hm : s.mem.wf s.font = true) :
    SameBytesOutside s.i.toNat (storedBytes i) s t := by
  cases i with
  | ldB x =>
    obtain ⟨hfit, rfl⟩ := h
    exact sameBytesOutside_writeRun hm (((accessFits_iff ..).1 hfit).resolve_left (by simp))
  | stBlock x =>
    obtain ⟨hfit, rfl⟩ := h
    have hout := sameBytesOutside_writeRun (pc := s.npc) hm (((accessFits_iff ..).1 hfit).resolve_left (by simp))
    rwa [regBlock_length] at hout
  | ret | call _ | drw _ _ _ | ldBlock _ => obtain ⟨-, rfl⟩ := h; exact fun _ _ => rfl
  | _ => cases h; exact fun _ _ => rfl

/-- R144: after Fx55 the byte at I + r is V[r]. -/
theorem Completes.byteAt_stBlock {x r : Reg} (h : Completes (.stBlock x) s t) (hm : s.mem.wf s.font = true) (hr : r ≤ x) :
    t.byteAt (s.i.toNat + r.val) = s.reg r := by
  obtain ⟨hfit, rfl⟩ := h
  have hlen : r.val < (regBlock s x).length := by rw [regBlock_length]; exact Nat.lt_succ_of_le hr
  have hle := ((accessFits_iff ..).1 hfit).resolve_left (by omega)
  exact (Memory.read_writeRun_inside s.mem s.i.toNat r.val _ hle hm hlen).trans (regBlock_getElem s x r.val hlen)

end

/-- Settles O56: a fault writes no byte, and an instruction that completes only its own run. -/
theorem memoryWriters : Obligations.MemoryWriters := by
  intro i s t hm h
  obtain ⟨f, -, rfl⟩ | ⟨hf, hc⟩ := exec_cases h
  · exact ⟨fun _ _ => rfl, fun _ _ => rfl⟩
  · exact ⟨hc.sameBytesOutside hm, fun hsome => by simp [hf] at hsome⟩

/-! ### What the next fetch sees -/

theorem fetch_of_le {s : State} (hpc : s.pc.toNat ≤ 0xFFE) : fetch s = .ok (s.wordAt s.pc.toNat) := by
  obtain ⟨-, e⟩ | ⟨hover, -⟩ := fetch_cases s
  · exact e
  · omega

/-- R90 to R94: a STEP at an open gate and a legal word runs the instruction the word decodes to. -/
theorem stepEvent_of_decode {s : State} {i : Instr} (hready : s.Ready) (hpc : s.pc.toNat ≤ 0xFFE)
    (hd : decode (s.wordAt s.pc.toNat) = .ok i) : stepEvent s = exec i s := by
  obtain ⟨hrun, hwait⟩ := hready
  simp only [stepEvent, hrun, hwait, fetch_of_le hpc, hd]

/-- Settles O33: the bytes at PC and PC + 1 are the ones the block store put there. -/
theorem storeIsSeenByNextFetch : Obligations.StoreIsSeenByNextFetch := by
  intro x r q s t hm hfit h hq hqr hpc
  have hc : Completes (.stBlock x) s t := completes_of_exec (if_neg (by omega)) h
  have hqx : q.val ≤ x.val := hq
  have hhi := hc.byteAt_stBlock hm (r := r) (Fin.le_def.2 (by omega))
  have hlo := hc.byteAt_stBlock hm hq
  rw [fetch_of_le (by omega), State.wordAt, hpc, hhi, Nat.add_assoc, ← hqr, hlo]

/-! ### A placed word (log entry 26) -/

theorem decode_of_decodeTableWord {nbits w : Nat} {i : Instr} (h : decodeTableWord nbits w = some i) :
    decode (tableWord nbits w) = .ok i := by
  simp only [decodeTableWord, decodeBytes, wordOfBytes_hi_lo] at h
  cases hd : decode (tableWord nbits w) with
  | error r => simp [hd] at h
  | ok j => simpa [hd] using h

theorem fetchablePc_le (s : State) : (fetchablePc s).toNat ≤ 0xFFE := by
  unfold fetchablePc
  split
  · assumption
  · decide

theorem placeWord_ready (s : State) (w : Word) : (placeWord s w).Ready := ⟨rfl, rfl⟩

theorem wordAt_placeWord {s : State} (hm : s.mem.wf s.font = true) (w : Word) :
    (placeWord s w).wordAt (fetchablePc s).toNat = w := by
  have hle : (fetchablePc s).toNat + [hiByte w, loByte w].length ≤ 0x1000 := Nat.add_le_add_right (fetchablePc_le s) 2
  have hhi : (placeWord s w).byteAt (fetchablePc s).toNat = hiByte w :=
    Memory.read_writeRun_inside s.mem _ 0 _ hle hm (by simp)
  have hlo : (placeWord s w).byteAt ((fetchablePc s).toNat + 1) = loByte w :=
    Memory.read_writeRun_inside s.mem _ 1 _ hle hm (by simp)
  rw [State.wordAt, hhi, hlo, wordOfBytes_hi_lo]

/-- Settles O9: the placed word is the one at PC, the gate is open and no event is queued. -/
theorem placedWordRunsNext : Obligations.PlacedWordRunsNext := by
  intro s w i hm hd
  have hdec : decode ((placeWord s (tableWord 16 w)).wordAt (fetchablePc s).toNat) = .ok i := by
    rw [wordAt_placeWord hm]
    exact decode_of_decodeTableWord hd
  exact stepEvent_of_decode (placeWord_ready ..) (fetchablePc_le s) hdec

end Sys2Proof.Machine
end

section
/-! PROOFS. The encoding round trips and the opcode table (spec/30_encoding.md rules R70 to R81). -/

namespace Sys2Proof

/-! ### The fields of a filled-in format are what it was filled in with (R71, R72) -/

section
variable {op : Nat} (hop : op < 16)
include hop

@[simp] theorem fieldOp_formatA (nnn : BitVec 12) : fieldOp (formatA op nnn) = op := by
  rw [fieldOp_eq, formatA_toNat op nnn hop]; omega

@[simp] theorem fieldNnn_formatA (nnn : BitVec 12) : fieldNnn (formatA op nnn) = nnn := by
  apply BitVec.eq_of_toNat_eq
  rw [fieldNnn_toNat, formatA_toNat op nnn hop]
  omega

@[simp] theorem fieldOp_formatXK (x : Reg) (kk : Byte) : fieldOp (formatXK op x kk) = op := by
  rw [fieldOp_eq, formatXK_toNat op x kk hop]; omega

@[simp] theorem fieldX_formatXK (x : Reg) (kk : Byte) : fieldX (formatXK op x kk) = x := by
  apply Fin.ext
  rw [fieldX_val, formatXK_toNat op x kk hop]
  omega

@[simp] theorem fieldKk_formatXK (x : Reg) (kk : Byte) : fieldKk (formatXK op x kk) = kk := by
  apply BitVec.eq_of_toNat_eq
  rw [fieldKk_toNat, formatXK_toNat op x kk hop]
  omega

@[simp] theorem fieldOp_formatX (x : Reg) {sub : Nat} (hs : sub < 256) : fieldOp (formatX op x sub) = op := by
  rw [fieldOp_eq, formatX_toNat op x sub hop hs]; omega

@[simp] theorem fieldX_formatX (x : Reg) {sub : Nat} (hs : sub < 256) : fieldX (formatX op x sub) = x := by
  apply Fin.ext
  rw [fieldX_val, formatX_toNat op x sub hop hs]
  omega

@[simp] theorem fieldKk_formatX_toNat (x : Reg) {sub : Nat} (hs : sub < 256) : (fieldKk (formatX op x sub)).toNat = sub := by
  rw [fieldKk_toNat, formatX_toNat op x sub hop hs]; omega

section
variable (x y : Reg) {n : Nat} (hn : n < 16)
include hn

@[simp] theorem fieldOp_formatXYN : fieldOp (formatXYN op x y n) = op := by
  rw [fieldOp_eq, formatXYN_toNat op x y n hop hn]; omega

@[simp] theorem fieldX_formatXYN : fieldX (formatXYN op x y n) = x := by
  apply Fin.ext
  rw [fieldX_val, formatXYN_toNat op x y n hop hn]
  omega

@[simp] theorem fieldY_formatXYN : fieldY (formatXYN op x y n) = y := by
  apply Fin.ext
  rw [fieldY_val, formatXYN_toNat op x y n hop hn]
  omega

@[simp] theorem fieldN_formatXYN : fieldN (formatXYN op x y n) = ⟨n, hn⟩ := by
  apply Fin.ext
  change (fieldN (formatXYN op x y n)).val = n
  rw [fieldN_val, formatXYN_toNat op x y n hop hn]
  omega

end
end

/-! ### Decoding an encoded instruction (R77) -/

/-- Format by format: the decoder tests the fixed fields the encoder wrote and reads the operands back. -/
theorem decode_encode (i : Instr) : decode (encode i) = .ok i := by
  cases i with
  | cls | ret => rfl
  | jp _ | call _ | ldI _ | jpV0 _ => simp [encode, decode]
  | seImm _ _ | sneImm _ _ | ldImm _ _ | addImm _ _ | rnd _ _ => simp [encode, decode]
  | seReg _ _ | sneReg _ _ | drw _ _ _ => simp [encode, decode]
  | ldReg _ _ | orReg _ _ | andReg _ _ | xorReg _ _ | addReg _ _ | subReg _ _ | shr _ _ | subnReg _ _ | shl _ _ =>
    simp [encode, decode, decodeFamily8]
  | skp _ | sknp _ => simp [encode, decode, decodeFamilyE]
  | ldVxDt _ | ldVxK _ | ldDtVx _ | ldStVx _ | addI _ | ldF _ | ldB _ | stBlock _ | ldBlock _ =>
    simp [encode, decode, decodeFamilyF]

theorem decodeBytes_encodeBytes (i : Instr) (rest : List Byte) : decodeBytes (encodeBytes i ++ rest) = .ok (i, rest) := by
  simp [encodeBytes, decodeBytes, wordOfBytes_hi_lo, decode_encode]

/-- Settles O10: on words format by format, and on bytes since the two bytes of a word join to it again. -/
theorem decodeOfEncodeIsIdentity : Obligations.DecodeOfEncodeIsIdentity :=
  fun i => ⟨decode_encode i, decodeBytes_encodeBytes i⟩

/-- Settles O11: each family is one format, filled in with the word's own fields. -/
theorem encodeOfDecodeIsIdentity : Obligations.EncodeOfDecodeIsIdentity :=
  fun _ _ h => encode_of_decode h

/-! ### The rows of the opcode table (R74) -/

/-- Two rows differ in a bit that both fix. -/
abbrev OpRow.Apart (r q : OpRow) : Prop := r.fixed &&& q.mask ≠ q.fixed &&& r.mask

theorem OpRow.apart_symm : Std.Symm OpRow.Apart := ⟨fun _ _ h => h.symm⟩

theorem OpRow.not_apart_of_covers {r q : OpRow} {w : Word} (hr : r.covers w = true) (hq : q.covers w = true) :
    ¬ r.Apart q := by
  rw [OpRow.covers, beq_iff_eq] at hr hq
  rw [OpRow.Apart, not_not, ← hr, ← hq, BitVec.and_assoc, BitVec.and_assoc, BitVec.and_comm r.mask]

theorem opcodeTable_pairwise_apart : opcodeTable.Pairwise OpRow.Apart := by decide

/-- Settles O12: two different rows of the table differ in a bit both fix, so no word agrees with both. -/
theorem opcodeRowsNeverOverlap : Obligations.OpcodeRowsNeverOverlap := by
  intro w r q hr hq hrw hqw
  by_contra hne
  have := OpRow.apart_symm
  exact OpRow.not_apart_of_covers hrw hqw (opcodeTable_pairwise_apart.forall hr hq hne)

/-! ### The illegal words (R75) -/

open Laws.FixedBits in
theorem rowOf_mem_and_covers : (i : Instr) → Statement i
  | .cls => cls
  | .ret => ret
  | .jp nnn => jp nnn
  | .call nnn => call nnn
  | .seImm x kk => seImm x kk
  | .sneImm x kk => sneImm x kk
  | .seReg x y => seReg x y
  | .ldImm x kk => ldImm x kk
  | .addImm x kk => addImm x kk
  | .ldReg x y => ldReg x y
  | .orReg x y => orReg x y
  | .andReg x y => andReg x y
  | .xorReg x y => xorReg x y
  | .addReg x y => addReg x y
  | .subReg x y => subReg x y
  | .shr x y => shr x y
  | .subnReg x y => subnReg x y
  | .shl x y => shl x y
  | .sneReg x y => sneReg x y
  | .ldI nnn => ldI nnn
  | .jpV0 nnn => jpV0 nnn
  | .rnd x kk => rnd x kk
  | .drw x y n => drw x y n
  | .skp x => skp x
  | .sknp x => sknp x
  | .ldVxDt x => ldVxDt x
  | .ldVxK x => ldVxK x
  | .ldDtVx x => ldDtVx x
  | .ldStVx x => ldStVx x
  | .addI x => addI x
  | .ldF x => ldF x
  | .ldB x => ldB x
  | .stBlock x => stBlock x
  | .ldBlock x => ldBlock x

theorem legalWord_encode (i : Instr) : legalWord (encode i) = true := by
  obtain ⟨hmem, hcov⟩ := rowOf_mem_and_covers i
  exact List.any_eq_true.2 ⟨_, hmem, hcov⟩

/-- R92: the decoder rejects exactly the words in no row of the table. -/
theorem legalWord_eq_false_iff {w : Word} : legalWord w = false ↔ ∃ r, decode w = .error r := by
  constructor
  · intro hl
    cases hd : decode w with
    | error r => exact ⟨r, rfl⟩
    | ok i => rw [← encode_of_decode hd, legalWord_encode] at hl; cases hl
  · rintro ⟨r, hd⟩
    exact legalWord_of_decode_error hd

/-! The decoder rejects each of R75's families of illegal words. -/

section
variable {w : Word}

theorem decode_family0_rejects (hop : fieldOp w = 0x0) (h0 : w ≠ 0x00E0) (hE : w ≠ 0x00EE) :
    decode w = .error (.illegalWord w) := by
  simp only [decode, hop, decodeFamily0, h0, hE, if_false]

theorem decode_family5_9_rejects (hop : fieldOp w = 0x5 ∨ fieldOp w = 0x9) (hn : (fieldN w).val ≠ 0) :
    decode w = .error (.illegalWord w) := by
  obtain hop | hop := hop
  · simp only [decode, hop, hn, if_false]
  · simp only [decode, hop, hn, if_false]

theorem decode_family8_rejects (hop : fieldOp w = 0x8) (h7 : 7 < (fieldN w).val) (hE : (fieldN w).val ≠ 0xE) :
    decode w = .error (.illegalWord w) := by
  simp only [decode, hop, decodeFamily8]
  split
  case h_10 => rfl
  all_goals omega

theorem decode_familyE_rejects (hop : fieldOp w = 0xE) (h9E : (fieldKk w).toNat ≠ 0x9E) (hA1 : (fieldKk w).toNat ≠ 0xA1) :
    decode w = .error (.illegalWord w) := by
  simp only [decode, hop, decodeFamilyE]

theorem decode_familyF_rejects (hop : fieldOp w = 0xF)
    (hk : (fieldKk w).toNat ∉ [0x07, 0x0A, 0x15, 0x18, 0x1E, 0x29, 0x33, 0x55, 0x65]) :
    decode w = .error (.illegalWord w) := by
  simp only [List.mem_cons, List.not_mem_nil, or_false, not_or] at hk
  simp only [decode, hop, decodeFamilyF]
  split
  case h_10 => rfl
  all_goals omega

end

/-- Settles O13: the decoder rejects the words of the six families and no others, and the table agrees with it. -/
theorem illegalWordsByFamily : Obligations.IllegalWordsByFamily := by
  intro w
  rw [legalWord_eq_false_iff]
  constructor
  · rintro ⟨r, hd⟩
    simpa only [← BitVec.toNat_ne_iff_ne, BitVec.reduceToNat] using decode_error hd
  · rw [← fieldOp_eq, ← fieldN_val, ← fieldKk_toNat]
    rintro (⟨hop, h0, hE⟩ | ⟨hop, hn⟩ | ⟨hop, h7, hE⟩ | ⟨hop, h9E, hA1⟩ | ⟨hop, hk⟩)
    · exact ⟨_, decode_family0_rejects hop (fun h => h0 (h ▸ rfl)) (fun h => hE (h ▸ rfl))⟩
    · exact ⟨_, decode_family5_9_rejects hop hn⟩
    · exact ⟨_, decode_family8_rejects hop h7 hE⟩
    · exact ⟨_, decode_familyE_rejects hop h9E hA1⟩
    · exact ⟨_, decode_familyF_rejects hop hk⟩

/-- Settles O14: the worked decodes are fixed words, evaluated one by one. -/
theorem workedDecodes : Obligations.WorkedDecodes := by
  refine ⟨rfl, rfl, rfl, rfl, rfl, rfl, ?_⟩
  simp only [List.forall_mem_cons]
  exact ⟨rfl, rfl, rfl, rfl, rfl, rfl, rfl, rfl, List.forall_mem_nil _⟩

end Sys2Proof
end

section
/-! PROOFS. The fetch-decode-execute cycle (spec/40_cycle.md rules R90 to R97): the gate, the fetch, the decode, the random byte and the
jump to itself. -/

namespace Sys2Proof.Machine

/-! ### The STEP event, case by case -/

section
variable {s : State}

/-- R90: a STEP at a closed gate. -/
theorem stepEvent_of_not_ready (h : ¬ s.Ready) : stepEvent s = .next s := by
  obtain ⟨-, e⟩ | ⟨-, -, e⟩ | ⟨hready, -⟩ | ⟨hready, -⟩ | ⟨hready, -⟩ := stepEvent_cases s
  · exact e
  · exact e
  all_goals exact absurd hready h

/-- R91: a STEP whose fetch leaves the memory. -/
theorem stepEvent_of_fetch_overrun (hready : s.Ready) (hpc : 0xFFE < s.pc.toNat) :
    stepEvent s = .next (faulted s .addressOutOfRange 0 (max s.pc.toNat 0x1000)) := by
  obtain ⟨hrun, hwait⟩ := hready
  obtain ⟨hle, -⟩ | ⟨-, e⟩ := fetch_cases s
  · omega
  · simp only [stepEvent, hrun, hwait, e]
    rfl

/-- R92: a STEP at a word the decoder rejects. -/
theorem stepEvent_of_decode_error {r : DecodeReject} (hready : s.Ready) (hpc : s.pc.toNat ≤ 0xFFE)
    (hd : decode (s.wordAt s.pc.toNat) = .error r) :
    stepEvent s = .next (faulted s .decodeError (s.wordAt s.pc.toNat) 0) := by
  obtain ⟨hrun, hwait⟩ := hready
  simp only [stepEvent, hrun, hwait, fetch_of_le hpc, hd]
  rfl

/-- Log entry 1: with no event queued a step is the STEP event. -/
theorem step_of_no_events (h : s.events = []) : step s = stepEvent s := by
  simp only [step, h]

end

/-- Settles O4: the two bytes at PC by weight, and the fetch fault above 0xFFE. -/
theorem fetchReadsBigEndianOrFaults : Obligations.FetchReadsBigEndianOrFaults :=
  fun _ hready =>
    ⟨fun hpc => ⟨_, fetch_of_le hpc, wordOfBytes_toNat ..⟩, stepEvent_of_fetch_overrun hready⟩

/-- Settles O5: the decoder rejects exactly the words in no row of the table. -/
theorem decodeErrorExactlyOnIllegalWords : Obligations.DecodeErrorExactlyOnIllegalWords := by
  intro s hready hpc
  refine ⟨fun hillegal => ?_, fun hlegal => ?_⟩
  · obtain ⟨r, hd⟩ := legalWord_eq_false_iff.1 hillegal
    exact stepEvent_of_decode_error hready hpc hd
  · cases hd : decode (s.wordAt s.pc.toNat) with
    | error r => cases hlegal.symm.trans (legalWord_of_decode_error hd)
    | ok i => exact ⟨i, rfl, stepEvent_of_decode hready hpc hd⟩

/-- Settles O1: with no event queued a step is the STEP event, at an open gate and a legal word. -/
theorem stepRunsDecodedInstruction : Obligations.StepRunsDecodedInstruction :=
  fun _ _ hev hready hpc hd => (step_of_no_events hev).trans (stepEvent_of_decode hready hpc hd)

/-- Settles O3: the byte a STEP carries changes neither the gate nor the word at PC. -/
theorem gatedStepChangesNothing : Obligations.GatedStepChangesNothing := by
  intro s r
  refine ⟨fun hgated => ⟨?_, fun hev => ?_⟩, fun hready hpc i hd => ?_⟩
  · exact congrArg (onNext _) (stepEvent_of_not_ready (s := { s with rnd := some r }) hgated)
  · rw [step_of_no_events hev, stepEvent_of_not_ready hgated]
  · exact congrArg (onNext _) (stepEvent_of_decode (s := { s with rnd := some r }) hready hpc hd)

/-! ### The random byte (R96) -/

/-- The two fields of the model that only Cxkk reads: the byte the STEP carries and the count of draws (log entry 2). -/
def State.withRandom (r : Option Byte) (n : Nat) (s : State) : State := { s with rnd := r, rndDraws := n }

section
variable (r : Option Byte) (n : Nat) (s : State)

@[simp] theorem State.withRandom_i : (s.withRandom r n).i = s.i := rfl
@[simp] theorem State.withRandom_mem : (s.withRandom r n).mem = s.mem := rfl
@[simp] theorem State.withRandom_font : (s.withRandom r n).font = s.font := rfl

theorem loadThen_withRandom {i : Instr} {len : Nat} {k k' : List Byte → State} (hk : ∀ bytes, k' bytes = (k bytes).withRandom r n) :
    loadThen (s.withRandom r n) i len k' = onNext (State.withRandom r n) (loadThen s i len k) := by
  simp only [loadThen, State.withRandom_i, State.withRandom_mem, State.withRandom_font, hk]
  cases memRead s.font s.mem s.i.toNat len with
  | ok bytes => rfl
  | error a => rfl

theorem storeThenAdvance_withRandom (i : Instr) (bytes : List Byte) :
    storeThenAdvance (s.withRandom r n) i bytes = onNext (State.withRandom r n) (storeThenAdvance s i bytes) := by
  simp only [storeThenAdvance, State.withRandom_i, State.withRandom_mem, State.withRandom_font]
  cases memWrite s.font s.mem s.i.toNat bytes with
  | ok m => rfl
  | error a => rfl

theorem execRet_withRandom : execRet (s.withRandom r n) = onNext (State.withRandom r n) (execRet s) := by
  obtain hsp | hsp := Nat.eq_zero_or_pos s.sp.val
  · simp only [execRet, s.pop_none hsp, (s.withRandom r n).pop_none hsp]
    rfl
  · simp only [execRet, s.pop_some hsp, (s.withRandom r n).pop_some hsp]
    rfl

theorem execCall_withRandom (nnn : BitVec 12) :
    execCall nnn (s.withRandom r n) = onNext (State.withRandom r n) (execCall nnn s) := by
  obtain hsp | hsp := Nat.lt_or_eq_of_le (Nat.le_of_lt_succ s.sp.isLt)
  · simp only [execCall, s.push_some _ hsp, (s.withRandom r n).push_some _ hsp]
    rfl
  · simp only [execCall, s.push_none _ hsp, (s.withRandom r n).push_none _ hsp]
    rfl

/-- Of the instructions with more than one outcome none decides by the random fields, and every other one but Cxkk writes values that do
not read them. -/
theorem exec_withRandom {i : Instr} (hi : ∀ x kk, i ≠ .rnd x kk) :
    exec i (s.withRandom r n) = onNext (State.withRandom r n) (exec i s) := by
  cases i with
  | rnd x kk => exact absurd rfl (hi x kk)
  | ret => exact execRet_withRandom r n s
  | call nnn => exact execCall_withRandom r n s nnn
  | drw _ _ _ | ldBlock _ => exact loadThen_withRandom r n s fun _ => rfl
  | ldB _ | stBlock _ => exact storeThenAdvance_withRandom r n s ..
  | _ => rfl

end

/-- Settles O7, instruction by instruction. -/
theorem randomByteReadOnlyByRnd : Obligations.RandomByteReadOnlyByRnd :=
  fun _ s r n => exec_withRandom r n s

/-! ### The jump to itself (R97) -/

theorem endOfRun_iff {s : State} :
    endOfRun s = true ↔ s.Ready ∧ s.pc.toNat ≤ 0xFFE ∧ s.wordAt s.pc.toNat = BitVec.ofNat 16 (0x1000 + s.pc.toNat) := by
  simp only [endOfRun, State.Ready, Bool.and_eq_true, beq_iff_eq, decide_eq_true_eq, and_assoc]

theorem zextNnn_setWidth {a : Addr} (h : a.toNat ≤ 0xFFF) : zextNnn (a.setWidth 12) = a := by
  apply BitVec.eq_of_toNat_eq
  rw [zextNnn_toNat, BitVec.toNat_setWidth]
  omega

/-- Settles O8: the word is the jump to the address PC holds, so the jump puts back what PC held. -/
theorem jumpToSelfIsSteady : Obligations.JumpToSelfIsSteady := by
  intro s hend hev
  obtain ⟨hready, hpc, hw⟩ := endOfRun_iff.1 hend
  have hz : zextNnn (s.pc.setWidth 12) = s.pc := zextNnn_setWidth (by omega)
  have henc : s.wordAt s.pc.toNat = encode (.jp (s.pc.setWidth 12)) := by
    rw [hw, encode, formatA, ← zextNnn_toNat, hz]
  calc step s = stepEvent s := step_of_no_events hev
    _ = exec (.jp (s.pc.setWidth 12)) s := stepEvent_of_decode hready hpc (henc ▸ decode_encode _)
    _ = .next { s with pc := zextNnn (s.pc.setWidth 12) } := rfl
    _ = .next s := by rw [hz]

end Sys2Proof.Machine
end

section
/-! PROOFS. Control transfer (spec/41_flow.md rules R100 to R108): the jumps, the call and the return with the stack between them, and the
register skips. -/

namespace Sys2Proof.Machine

/-! ### Jumps (R101, R107) -/

/-- R107, D8 (log entry 11): the target of JP V0, nnn is the whole sum. -/
theorem offsetTarget_toNat (s : State) (nnn : BitVec 12) : (offsetTarget s nnn).toNat = nnn.toNat + (s.reg 0).toNat := by
  have hn := nnn.isLt
  have hv := (s.reg 0).isLt
  simp only [offsetTarget, zextNnn, zextByte, BitVec.toNat_add, BitVec.toNat_setWidth]
  omega

/-- Settles O15: the target is nnn zero-extended. -/
theorem jumpSetsProgramCounter : Obligations.JumpSetsProgramCounter :=
  fun nnn _ => ⟨decode_encode (.jp nnn), _, rfl, zextNnn_toNat nnn, rfl, fun _ => rfl⟩

/-- Settles O16: the jump leaves the gate as it was, so above 0xFFE the next STEP is the fetch fault. -/
theorem offsetJumpAddsV0 : Obligations.OffsetJumpAddsV0 :=
  fun nnn s => ⟨decode_encode (.jpV0 nnn), _, rfl, offsetTarget_toNat s nnn, rfl, fun _ => rfl,
    fun hready hpc => stepEvent_of_fetch_overrun hready hpc⟩

/-! ### Call and return (R100, R102, R108) -/

section
variable {s : State}

theorem exec_call_of_lt (nnn : BitVec 12) (h : s.sp.val < 16) :
    exec (.call nnn) s =
      .next { s with stack := s.stack.set s.sp.val s.npc, sp := ⟨s.sp.val + 1, by omega⟩, pc := zextNnn nnn } := by
  simp only [exec, execCall, s.push_some s.npc h]

theorem exec_ret_of_pos (h : 0 < s.sp.val) :
    exec .ret s = .next { s with sp := ⟨s.sp.val - 1, by omega⟩, pc := s.stack[s.sp.val - 1]'(by omega) } := by
  simp only [exec, execRet, s.pop_some h]

end

/-- Settles O17: the push writes the entry at SP alone, and a full stack is the table's fault. -/
theorem callPushesReturnAddress : Obligations.CallPushesReturnAddress := by
  refine fun nnn s => ⟨decode_encode (.call nnn), fun h => ?_, fun h => exec_of_faultOf (i := .call nnn) (if_pos h)⟩
  refine ⟨_, exec_call_of_lt nnn h, zextNnn_toNat nnn, rfl, ?newest, fun k hk => ?older, rfl, fun _ => rfl⟩
  case newest => exact Vector.getElem_set_self h
  case older => exact Vector.getElem_set_ne h k.isLt hk.symm

/-- Settles O18: the pop writes SP and PC alone, and an empty stack is the table's fault. -/
theorem returnPopsNewestEntry : Obligations.ReturnPopsNewestEntry := by
  refine fun s => ⟨decode_encode .ret, fun h => ?_, fun h => exec_of_faultOf (i := .ret) (if_pos h)⟩
  exact ⟨_, exec_ret_of_pos h, rfl, rfl, rfl, fun _ => rfl⟩

/-- Settles O19: the entry RET pops is the one CALL pushed, and the push left the entries below it alone. -/
theorem callThenReturnRestoresPc : Obligations.CallThenReturnRestoresPc := by
  intro nnn s t u hs hcall hstack hsp
  cases (exec_call_of_lt nnn hs).symm.trans hcall
  have hdepth : u.sp.val = s.sp.val + 1 := congrArg Fin.val hsp
  refine ⟨_, exec_ret_of_pos (by omega), ?pc, ?sp, fun k hk => ?below, rfl⟩
  case pc =>
    simp only [hstack, hdepth, Nat.add_sub_cancel]
    exact Vector.getElem_set_self hs
  case sp => exact Fin.ext (by simp only [hdepth, Nat.add_sub_cancel])
  case below =>
    simp only [hstack]
    exact Vector.getElem_set_ne hs k.isLt (by omega)

/-! ### Register skips (R103 to R106) -/

/-- A skip by its condition as a proposition, with npc + 2 and npc as distances from PC. -/
theorem State.skipIf_of_iff (s : State) {c : Bool} {p : Prop} [Decidable p] (h : c = true ↔ p) :
    s.skipIf c = { s with pc := if p then s.pc + 4 else s.pc + 2 } := by
  have hskip : s.pc + 2 + 2 = s.pc + 4 := BitVec.add_assoc ..
  simp only [State.skipIf, State.npc, h, hskip]

/-- Settles O20: the four skips differ in the condition alone. -/
theorem registerSkips : Obligations.RegisterSkips :=
  fun x y kk s => ⟨congrArg _ (s.skipIf_of_iff beq_iff_eq), congrArg _ (s.skipIf_of_iff bne_iff_ne),
    congrArg _ (s.skipIf_of_iff beq_iff_eq), congrArg _ (s.skipIf_of_iff bne_iff_ne), decode_encode (.seImm x kk),
    decode_encode (.sneImm x kk), decode_encode (.seReg x y), decode_encode (.sneReg x y)⟩

end Sys2Proof.Machine
end

section
/-! PROOFS. Arithmetic and logic (spec/42_alu.md rules R120 to R134): what a plain and a flag-writing result leave alone, the flags and the
results as numbers, and the instructions assembled from them. -/

namespace Sys2Proof.Machine

/-! ### The two ways to write a result (R120 to R125, R133) -/

section
variable (s : State) (x : Reg)

/-- The frame of an instruction that writes Vx and no flag. -/
theorem State.setReg_writesOnlyRegs (b : Byte) : WritesOnlyRegs (· == x) s (s.setReg x b).advance :=
  ⟨fun r hr => s.reg_setReg_other x r b (beq_eq_false_iff_ne.1 hr), rfl, rfl, fun _ => rfl⟩

/-- R133: the frame of an instruction that writes VF and Vx. -/
theorem State.writeFlagged_writesOnlyRegs (f : Bool) (b : Byte) :
    WritesOnlyRegs (fun r => r == x || r == vf) s (s.writeFlagged x f b) := by
  refine ⟨fun r hr => ?_, rfl, rfl, fun _ => rfl⟩
  obtain ⟨hx, hvf⟩ := Bool.or_eq_false_iff.1 hr
  rw [State.reg_writeFlagged, if_neg (beq_eq_false_iff_ne.1 hx), if_neg (beq_eq_false_iff_ne.1 hvf)]

/-- R133, D15 (log entry 18): the result is written last, so Vx holds it for every x. -/
@[simp] theorem State.reg_writeFlagged_result (f : Bool) (b : Byte) : (s.writeFlagged x f b).reg x = b := by
  rw [State.reg_writeFlagged, if_pos rfl]

/-- R133: the flag stays in VF where the result does not overwrite it. -/
theorem State.reg_writeFlagged_vf {x : Reg} (hx : x ≠ vf) (f : Bool) (b : Byte) : (s.writeFlagged x f b).reg vf = flagByte f := by
  rw [State.reg_writeFlagged, if_neg hx.symm, if_pos rfl]

end

/-! ### Results and flags as numbers (R126 to R130) -/

section
variable (a b : Byte)

theorem flagByte_carryOut : flagByte (carryOut a b) = if 255 < a.toNat + b.toNat then 1 else 0 := by
  simp only [flagByte, carryOut, gt_iff_lt, decide_eq_true_eq]

theorem flagByte_noBorrow : flagByte (noBorrow a b) = if b.toNat ≤ a.toNat then 1 else 0 := by
  simp only [flagByte, noBorrow, ge_iff_le, decide_eq_true_eq]

theorem flagByte_toNat (f : Bool) : (flagByte f).toNat = f.toNat := by cases f <;> rfl

theorem flagByte_bitOutRight_toNat : (flagByte (bitOutRight a)).toNat = a.toNat % 2 := by
  rw [flagByte_toNat, bitOutRight, BitVec.getLsbD, Nat.toNat_testBit, Nat.pow_zero, Nat.div_one]

theorem flagByte_bitOutLeft_toNat : (flagByte (bitOutLeft a)).toNat = a.toNat / 128 := by
  have ha := a.isLt
  rw [flagByte_toNat, bitOutLeft, BitVec.getLsbD, Nat.toNat_testBit]
  omega

theorem toNat_sub_eq_emod : ((a - b).toNat : Int) = (a.toNat - b.toNat : Int) % 256 := by
  have ha := a.isLt
  have hb := b.isLt
  rw [BitVec.toNat_sub]
  omega

theorem toNat_ushiftRight_one : (a >>> 1).toNat = a.toNat / 2 := by
  rw [BitVec.toNat_ushiftRight, Nat.shiftRight_one]

theorem toNat_shiftLeft_one : (a <<< 1).toNat = a.toNat * 2 % 256 := by
  rw [BitVec.toNat_shiftLeft, Nat.shiftLeft_eq, Nat.pow_one]

end

/-! ### The instructions -/

/-- Settles O21: both write Vx and no flag. -/
theorem immediateLoadAndAdd : Obligations.ImmediateLoadAndAdd := by
  refine fun x kk s => ⟨⟨_, rfl, ?load, s.setReg_writesOnlyRegs x kk⟩, ⟨_, rfl, ?add, s.setReg_writesOnlyRegs x _⟩,
    decode_encode (.ldImm x kk), decode_encode (.addImm x kk)⟩
  case load => rw [State.reg_advance, State.reg_setReg_same]
  case add => rw [State.reg_advance, State.reg_setReg_same, BitVec.toNat_add]

/-- Settles O23: the carry is the flag, and the sum is the result. -/
theorem addSetsCarry : Obligations.AddSetsCarry := by
  refine fun x y s => ⟨decode_encode (.addReg x y), _, rfl, ?sum, fun hx => ?carry, s.writeFlagged_writesOnlyRegs x _ _⟩
  case sum => rw [State.reg_writeFlagged_result, BitVec.toNat_add]
  case carry => rw [State.reg_writeFlagged_vf s hx, flagByte_carryOut]

/-- R127, R129: what SUB and SUBN share, which take their operands in opposite orders. -/
theorem State.writeFlagged_sub (s : State) (x : Reg) (a b : Byte) :
    ∃ t, (.next (s.writeFlagged x (noBorrow a b) (a - b)) : Result) = .next t ∧
      ((t.reg x).toNat : Int) = (a.toNat - b.toNat : Int) % 256 ∧
      (x ≠ vf → t.reg vf = if b.toNat ≤ a.toNat then 1 else 0) ∧
      WritesOnlyRegs (fun r => r == x || r == vf) s t := by
  refine ⟨_, rfl, ?difference, fun hx => ?flag, s.writeFlagged_writesOnlyRegs x _ _⟩
  case difference => rw [State.reg_writeFlagged_result, toNat_sub_eq_emod]
  case flag => rw [State.reg_writeFlagged_vf s hx, flagByte_noBorrow]

/-- Settles O24: SUB and SUBN are one write with the operands exchanged. -/
theorem subtractionsSetNoBorrow : Obligations.SubtractionsSetNoBorrow :=
  fun x y s => ⟨s.writeFlagged_sub x (s.reg x) (s.reg y), s.writeFlagged_sub x (s.reg y) (s.reg x),
    decode_encode (.subReg x y), decode_encode (.subnReg x y)⟩

/-- Settles O25: the flag is the bit shifted out of Vx, and neither meaning reads the field y. -/
theorem shiftsByOne : Obligations.ShiftsByOne := by
  refine fun x y s => ⟨⟨_, rfl, ?half, fun hx => ?lowBit, s.writeFlagged_writesOnlyRegs x _ _⟩,
    ⟨_, rfl, ?double, fun hx => ?highBit, s.writeFlagged_writesOnlyRegs x _ _⟩, fun _ => ⟨rfl, rfl⟩,
    decode_encode (.shr x y), decode_encode (.shl x y)⟩
  case half => rw [State.reg_writeFlagged_result, toNat_ushiftRight_one]
  case lowBit => rw [State.reg_writeFlagged_vf s hx, flagByte_bitOutRight_toNat]
  case double => rw [State.reg_writeFlagged_result, toNat_shiftLeft_one]
  case highBit => rw [State.reg_writeFlagged_vf s hx, flagByte_bitOutLeft_toNat]

/-- R131: the byte a STEP carries is the one drawn. -/
theorem randomByte_of_carried {s : State} {q : Byte} (h : s.rnd = some q) : randomByte s = q := by
  rw [randomByte, h, Option.getD_some]

/-- Settles O26: the byte is the one drawn, and the draw itself writes no register and no memory. -/
theorem randomByteIsMasked : Obligations.RandomByteIsMasked := by
  intro x kk s
  obtain ⟨hregs, hpc, -, hmem⟩ := s.drawRandom.setReg_writesOnlyRegs x (randomByte s &&& kk)
  refine ⟨randomByte s, _, rfl, ?masked, fun q => randomByte_of_carried, hregs, hpc, rfl, rfl, rfl, hmem,
    decode_encode (.rnd x kk)⟩
  rw [State.reg_advance, State.reg_setReg_same]

end Sys2Proof.Machine
end

section
/-! PROOFS. The index register and the memory instructions (spec/43_index_memory.md rules R140 to R147): the values I gets, the digits LD B
stores, the registers LD Vx, [I] loads, and the round trip of the two block transfers. -/

namespace Sys2Proof.Machine

/-! ### The index register (R140 to R142) -/

theorem zextByte_toNat (b : Byte) : (zextByte b).toNat = b.toNat := BitVec.toNat_setWidth_of_le (by decide)

/-- R142, D12 (log entry 15): five times a whole byte needs no wrap. -/
theorem glyphAddr_toNat (b : Byte) : (glyphAddr b).toNat = 5 * b.toNat := by
  have hb := b.isLt
  simp only [glyphAddr, BitVec.toNat_add, BitVec.toNat_mul, zextByte_toNat, BitVec.reduceToNat]
  omega

/-- Settles O27: I is nnn zero-extended. -/
theorem loadIndexImmediate : Obligations.LoadIndexImmediate :=
  fun nnn _ => ⟨decode_encode (.ldI nnn), _, rfl, zextNnn_toNat nnn, rfl, rfl, fun _ => rfl⟩

/-- Settles O28: the sum wraps at 16 bits, and neither meaning has a fault or a flag. -/
theorem indexArithmetic : Obligations.IndexArithmetic := by
  refine fun x s => ⟨⟨_, rfl, ?sum, rfl, rfl, fun _ => rfl⟩, ⟨_, rfl, glyphAddr_toNat (s.reg x), rfl, rfl, fun _ => rfl⟩,
    decode_encode (.addI x), decode_encode (.ldF x)⟩
  rw [State.advance_i, BitVec.toNat_add, zextByte_toNat]

/-! ### What a memory instruction that completes has moved (R143 to R145) -/

section
variable {s t : State} {x : Reg}

/-- R66: where the table gives no fault the instruction completes. -/
theorem exec_completes {i : Instr} (hf : faultOf i s = none) : ∃ t, exec i s = .next t ∧ Completes i s t := by
  obtain ⟨t, ht⟩ := exec_answers i s
  exact ⟨t, ht, completes_of_exec hf ht⟩

theorem map_toNat_bcdDigits (b : Byte) :
    (bcdDigits b).map BitVec.toNat = [b.toNat / 100, b.toNat / 10 % 10, b.toNat % 10] := by
  have hb := b.isLt
  simp only [bcdDigits, List.map_cons, List.map_nil, BitVec.toNat_ofNat, List.cons.injEq, and_true]
  omega

/-- R143: after Fx33 the run of three bytes at I is the digits of Vx. -/
theorem Completes.readRun_ldB (h : Completes (.ldB x) s t) (hm : s.mem.wf s.font = true) :
    t.mem.readRun t.font s.i.toNat 3 = bcdDigits (s.reg x) := by
  obtain ⟨hfit, rfl⟩ := h
  exact Memory.readRun_writeRun hm (((accessFits_iff ..).1 hfit).resolve_left (by simp))

/-- R143: the three digits as numbers. -/
theorem Completes.digits_ldB (h : Completes (.ldB x) s t) (hm : s.mem.wf s.font = true) :
    (t.byteAt s.i.toNat).toNat = (s.reg x).toNat / 100 ∧
    (t.byteAt (s.i.toNat + 1)).toNat = (s.reg x).toNat / 10 % 10 ∧
    (t.byteAt (s.i.toNat + 2)).toNat = (s.reg x).toNat % 10 := by
  have hdigits := congrArg (List.map BitVec.toNat) (h.readRun_ldB hm)
  rw [map_toNat_bcdDigits] at hdigits
  simpa only [Memory.readRun, State.byteAt, Nat.add_assoc, Nat.reduceAdd, List.map_cons, List.map_nil, List.cons.injEq,
    and_true] using hdigits

/-- R145: after Fx65 a register up to x is the byte as far above I. -/
theorem Completes.reg_ldBlock (h : Completes (.ldBlock x) s t) {r : Reg} (hr : r ≤ x) :
    t.reg r = s.byteAt (s.i.toNat + r.val) := by
  obtain ⟨-, rfl⟩ := h
  have hlt : r.val < x.val + 1 := Nat.lt_succ_of_le hr
  simp only [State.reg, writeRegs_getElem, Memory.readRun_length, Memory.readRun_getElem]
  exact dif_pos ⟨Nat.zero_le _, by omega⟩

/-- R145: Fx65 writes V0 to Vx and PC alone. -/
theorem Completes.writesOnlyRegs_ldBlock (h : Completes (.ldBlock x) s t) : WritesOnlyRegs (fun r => r ≤ x) s t := by
  have hregs : SameRegsBut (fun r => r ≤ x) s t := fun _ hr => h.reg hr
  obtain ⟨-, rfl⟩ := h
  exact ⟨hregs, rfl, rfl, fun _ => rfl⟩

end

/-! ### The instructions -/

/-- Settles O29: the digits are the run stored at I, and beyond 0xFFD the fault is the table's. -/
theorem bcdStoresDigits : Obligations.BcdStoresDigits := by
  refine fun x s hm => ⟨decode_encode (.ldB x), fun hfit => ?_, fun hover => exec_of_faultOf (i := .ldB x) (if_pos (by omega))⟩
  obtain ⟨t, ht, hc⟩ := exec_completes (i := .ldB x) (s := s) (if_neg (by omega))
  obtain ⟨hhundreds, htens, hones⟩ := hc.digits_ldB hm
  refine ⟨t, ht, hhundreds, htens, hones, hc.sameBytesOutside hm, ?_⟩
  obtain ⟨-, rfl⟩ := hc
  exact ⟨rfl, rfl⟩

/-- Settles O30: the block is the run stored at I, and beyond 0xFFF the fault is the table's. -/
theorem blockStoreWritesMemory : Obligations.BlockStoreWritesMemory := by
  refine fun x s hm =>
    ⟨decode_encode (.stBlock x), fun hfit => ?_, fun hover => exec_of_faultOf (i := .stBlock x) (if_pos hover)⟩
  obtain ⟨t, ht, hc⟩ := exec_completes (i := .stBlock x) (s := s) (if_neg (by omega))
  refine ⟨t, ht, fun r hr => hc.byteAt_stBlock hm hr, hc.sameBytesOutside hm, ?_⟩
  obtain ⟨-, rfl⟩ := hc
  exact ⟨rfl, rfl⟩

/-- Settles O31: the registers up to x are the run read at I, and beyond 0xFFF the fault is the table's. -/
theorem blockLoadReadsMemory : Obligations.BlockLoadReadsMemory := by
  refine fun x s =>
    ⟨decode_encode (.ldBlock x), fun hfit => ?_, fun hover => exec_of_faultOf (i := .ldBlock x) (if_pos hover)⟩
  obtain ⟨t, ht, hc⟩ := exec_completes (i := .ldBlock x) (s := s) (if_neg (by omega))
  exact ⟨t, ht, fun r hr => hc.reg_ldBlock hr, hc.writesOnlyRegs_ldBlock⟩

/-- Settles O32: the load reads at the same I the bytes the store put there. -/
theorem blockStoreLoadRoundTrip : Obligations.BlockStoreLoadRoundTrip := by
  intro x s t u hm hfit hstore hbytes hi
  have hst : Completes (.stBlock x) s t := completes_of_exec (if_neg (by omega)) hstore
  obtain ⟨w, hw, hld⟩ := exec_completes (i := .ldBlock x) (s := u) (if_neg (by rw [hi]; omega))
  refine ⟨hst.sameBytesOutside hm, w, hw, fun r hr => ?_, fun r hr => hld.reg (decide_eq_false (Fin.not_le.2 hr))⟩
  calc w.reg r = u.byteAt (u.i.toNat + r.val) := hld.reg_ldBlock hr
    _ = t.byteAt (s.i.toNat + r.val) := by rw [hi, hbytes]
    _ = s.reg r := hst.byteAt_stBlock hm hr

end Sys2Proof.Machine
end

section
/-! PROOFS. The display (spec/44_display.md rules R150 to R154): the drawing loops of DRW come down to cells, a second draw undoes the
first, and no other event but a restart or CLS reaches a cell. -/

namespace Sys2Proof.Machine

/-! ### Drawing as inverting a set of cells -/

/-- From `a` to `b` the cells of `P` are inverted and the others stay, and the collision so far becomes set iff one of them was 1. -/
structure InvertsCells (P : Fin 64 → Fin 32 → Prop) (a b : Display × Bool) : Prop where
  inverted : ∀ cx cy, P cx cy → b.1.cell cx cy = !a.1.cell cx cy
  kept : ∀ cx cy, ¬ P cx cy → b.1.cell cx cy = a.1.cell cx cy
  collision : b.2 = true ↔ a.2 = true ∨ ∃ cx cy, P cx cy ∧ a.1.cell cx cy = true

section
variable {P Q R : Fin 64 → Fin 32 → Prop} {a b c : Display × Bool}

theorem InvertsCells.of_none (hP : ∀ cx cy, ¬ P cx cy) : InvertsCells P a a where
  inverted cx cy h := absurd h (hP cx cy)
  kept _ _ _ := rfl
  collision := by simp [hP]

/-- Two drawings one after the other, if no cell lies under both. -/
theorem InvertsCells.trans (hab : InvertsCells P a b) (hbc : InvertsCells Q b c) (hdisjoint : ∀ cx cy, P cx cy → ¬ Q cx cy)
    (hR : ∀ cx cy, R cx cy ↔ P cx cy ∨ Q cx cy) : InvertsCells R a c where
  inverted cx cy h := by
    obtain hp | hq := (hR cx cy).1 h
    · rw [hbc.kept cx cy (hdisjoint cx cy hp), hab.inverted cx cy hp]
    · rw [hbc.inverted cx cy hq, hab.kept cx cy fun hp => hdisjoint cx cy hp hq]
  kept cx cy h := by
    obtain ⟨hp, hq⟩ := not_or.1 (mt (hR cx cy).2 h)
    rw [hbc.kept cx cy hq, hab.kept cx cy hp]
  collision := by
    have hold : ∀ cx cy, Q cx cy ∧ b.1.cell cx cy = true ↔ Q cx cy ∧ a.1.cell cx cy = true := fun cx cy =>
      and_congr_right fun hq => by rw [hab.kept cx cy fun hp => hdisjoint cx cy hp hq]
    simp only [hbc.collision, hab.collision, hold, hR, or_and_right, exists_or, or_assoc]

/-- R152: inverting the same cells twice leaves every cell as it was. -/
theorem InvertsCells.display_of_twice (hab : InvertsCells P a b) {d e : Display × Bool} (hde : InvertsCells P d e)
    (hd : d.1 = b.1) : e.1 = a.1 := by
  refine Display.ext_cells _ _ fun cx cy => ?_
  by_cases h : P cx cy
  · rw [hde.inverted cx cy h, hd, hab.inverted cx cy h, Bool.not_not]
  · rw [hde.kept cx cy h, hd, hab.kept cx cy h]

end

/-! ### The loops of DRW (R151) -/

/-- The first `m` columns of a row have a bit of 1 over the cell. -/
def rowCovers (row : Byte) (m ox py : Nat) (cx : Fin 64) (cy : Fin 32) : Prop :=
  ∃ c < m, (ox + c) % 64 = cx.val ∧ py % 32 = cy.val ∧ row.getLsbD (7 - c) = true

theorem drawPixel_invertsCells (px py : Nat) (a : Display × Bool) :
    InvertsCells (fun cx cy => px % 64 = cx.val ∧ py % 32 = cy.val) a (drawPixel px py a) where
  inverted cx cy h := by rw [drawPixel_cell, if_pos h]
  kept cx cy h := by rw [drawPixel_cell, if_neg h]
  collision := by
    rw [drawPixel_collision, Bool.or_eq_true]
    refine or_congr_right ⟨fun h => ⟨_, _, ⟨rfl, rfl⟩, h⟩, ?_⟩
    rintro ⟨cx, cy, ⟨hx, hy⟩, h⟩
    simpa only [hx, hy] using h

/-- One column of a row: a bit of 1 draws its pixel, a bit of 0 draws nothing. -/
theorem drawBit_invertsCells (bit : Bool) (px py : Nat) (a : Display × Bool) :
    InvertsCells (fun cx cy => px % 64 = cx.val ∧ py % 32 = cy.val ∧ bit = true) a (if bit then drawPixel px py a else a) := by
  cases bit with
  | false => exact .of_none (by simp)
  | true => simpa using drawPixel_invertsCells px py a

/-- By induction on the columns drawn: up to 8 of them fall on different cells, for 8 < 64. -/
theorem drawRow_columns_invertsCells (row : Byte) (ox py : Nat) (a : Display × Bool) {m : Nat} (hm : m ≤ 8) :
    InvertsCells (rowCovers row m ox py) a
      ((List.range m).foldl (fun a c => if row.getLsbD (7 - c) then drawPixel (ox + c) py a else a) a) := by
  induction m with
  | zero => exact .of_none (by simp [rowCovers])
  | succ m ih =>
    rw [List.range_succ, List.foldl_concat]
    refine (ih (by omega)).trans (drawBit_invertsCells ..) ?disjoint fun _ _ => Nat.exists_lt_succ_right
    rintro cx cy ⟨c, hc, hx, -⟩ ⟨hx', -⟩
    omega

theorem drawRow_invertsCells (row : Byte) (ox py : Nat) (a : Display × Bool) :
    InvertsCells (rowCovers row 8 ox py) a (drawRow ox py row a) :=
  drawRow_columns_invertsCells row ox py a (Nat.le_refl 8)

/-- A sprite is its first row and, one row lower, the sprite of the others. -/
theorem spriteCovers_succ (row : Nat → Byte) (n ox oy : Nat) (cx : Fin 64) (cy : Fin 32) :
    spriteCovers row (n + 1) ox oy cx cy ↔
      rowCovers (row 0) 8 ox oy cx cy ∨ spriteCovers (fun r => row (r + 1)) n ox (oy + 1) cx cy := by
  simp only [spriteCovers, rowCovers, exists_and_left, Nat.exists_lt_succ_left (n := n), Nat.add_zero, ← Nat.add_assoc,
    Nat.add_right_comm oy 1]

/-- By induction on the rows: up to 32 of them fall on different cells. -/
theorem drawRows_invertsCells (font : Font) (m : Memory) (ox : Nat) {n : Nat} (hn : n ≤ 32) (addr oy : Nat) (a : Display × Bool) :
    InvertsCells (spriteCovers (fun r => m.read font (addr + r)) n ox oy) a (drawRows ox oy (m.readRun font addr n) a) := by
  induction n generalizing addr oy a with
  | zero => exact .of_none (by simp [spriteCovers])
  | succ n ih =>
    have hrest := ih (by omega) (addr + 1) (oy + 1) (drawRow ox oy (m.read font addr) a)
    refine (drawRow_invertsCells ..).trans hrest ?disjoint fun cx cy => ?_
    · rintro cx cy ⟨c, -, -, hy, -⟩ ⟨r, c', hr, -, -, hy', -⟩
      omega
    · simp only [spriteCovers_succ, Nat.add_zero, Nat.add_assoc, Nat.add_comm 1]

/-! ### CLS and DRW -/

section
variable {x y : Reg} {n : Fin 16} {s t u : State}

theorem flagByte_eq_one_iff {f : Bool} : flagByte f = 1 ↔ f = true := by cases f <;> decide

/-- R151: DRW inverts the cells its sprite is drawn over, and VF is the collision. -/
theorem Completes.invertsCells_drw (h : Completes (.drw x y n) s t) :
    ∃ f, InvertsCells (drawnOver s x y n) (s.disp, false) (t.disp, f) ∧ t.reg vf = flagByte f := by
  obtain ⟨-, rfl⟩ := h
  exact ⟨_, drawRows_invertsCells _ _ _ (by omega) _ _ _, State.reg_setReg_same ..⟩

/-- The sprite depends on I, the origin's registers and the bytes of memory alone. -/
theorem drawnOver_congr (hbytes : SameBytes s u) (hi : u.i = s.i) (hx : u.reg x = s.reg x) (hy : u.reg y = s.reg y) :
    drawnOver u x y n = drawnOver s x y n := by
  unfold drawnOver
  simp only [hi, hx, hy, hbytes _]

theorem faultOf_drw_of_fits (hfit : n.val = 0 ∨ s.i.toNat + n.val - 1 ≤ 0xFFF) : faultOf (.drw x y n) s = none :=
  if_neg (by omega)

end

/-- Settles O37: the display CLS leaves is a constant with every cell 0. -/
theorem clearScreenClearsEveryCell : Obligations.ClearScreenClearsEveryCell := by
  refine ⟨decode_encode .cls, fun s => ⟨_, rfl, Display.cell_clear, rfl, rfl, fun _ => rfl⟩, ?_⟩
  rintro s s' t t' ⟨⟩ ⟨⟩
  rfl

/-- Settles O38: the loops invert the cells under the sprite, and beyond 0xFFF the fault is the table's. -/
theorem drawXorsSpriteCellwise : Obligations.DrawXorsSpriteCellwise := by
  refine fun x y n s =>
    ⟨decode_encode (.drw x y n), fun hfit => ?_, fun hn hover => exec_of_faultOf (i := .drw x y n) (if_pos ⟨hn, hover⟩)⟩
  obtain ⟨t, ht, hc⟩ := exec_completes (i := .drw x y n) (faultOf_drw_of_fits hfit)
  obtain ⟨f, hdraw, hvf⟩ := hc.invertsCells_drw
  have hcollision : f = true ↔ ∃ cx cy, drawnOver s x y n cx cy ∧ s.disp.cell cx cy = true := by simpa using hdraw.collision
  refine ⟨t, ht, hdraw.inverted, hdraw.kept, fun h => ?_, fun h => ?_, fun r hr => hc.reg hr, ?_⟩
  · rw [hvf, flagByte_eq_one_iff, hcollision]
    exact h
  · rw [hvf, Bool.eq_false_iff.2 (mt hcollision.1 h)]
    rfl
  · obtain ⟨-, rfl⟩ := hc
    exact ⟨rfl, rfl, fun _ => rfl⟩

/-- Settles O39: the second draw inverts the same cells, and one of them is 1 then iff it was 0 before the first. -/
theorem drawTwiceRestoresDisplay : Obligations.DrawTwiceRestoresDisplay := by
  intro x y n s t u hfit hfirst hdisp hbytes hi hx hy
  obtain ⟨f, hst, -⟩ := (completes_of_exec (faultOf_drw_of_fits hfit) hfirst).invertsCells_drw
  obtain ⟨w, hw, hc⟩ := exec_completes (i := .drw x y n) (faultOf_drw_of_fits (hi ▸ hfit))
  obtain ⟨g, huw, hvf⟩ := hc.invertsCells_drw
  rw [drawnOver_congr hbytes hi hx hy] at huw
  refine ⟨w, hw, hst.display_of_twice huw hdisp, ?_⟩
  have hset : ∀ cx cy, drawnOver s x y n cx cy ∧ u.disp.cell cx cy = true ↔
      drawnOver s x y n cx cy ∧ s.disp.cell cx cy = false := fun cx cy =>
    and_congr_right fun h => by rw [hdisp, hst.inverted cx cy h, Bool.not_eq_true']
  calc w.reg vf = 1 ↔ g = true := by rw [hvf, flagByte_eq_one_iff]
    _ ↔ ∃ cx cy, drawnOver s x y n cx cy ∧ u.disp.cell cx cy = true := by simpa using huw.collision
    _ ↔ ∃ cx cy, drawnOver s x y n cx cy ∧ s.disp.cell cx cy = false := by simp only [hset]

/-! ### Who writes the display (R153) -/

section
variable {s t : State}

theorem Completes.disp {i : Instr} (h : Completes i s t) (hcls : i ≠ .cls) (hdrw : ∀ x y n, i ≠ .drw x y n) : t.disp = s.disp := by
  cases i with
  | cls => exact absurd rfl hcls
  | drw x y n => exact absurd rfl (hdrw x y n)
  | ret | call _ | ldB _ | stBlock _ | ldBlock _ => obtain ⟨-, rfl⟩ := h; rfl
  | _ => cases h; rfl

/-- An instruction that changes the display is CLS or DRW: a fault changes none. -/
theorem writer_of_exec_disp_ne {i : Instr} (h : exec i s = .next t) (hne : t.disp ≠ s.disp) :
    i = .cls ∨ ∃ x y n, i = .drw x y n := by
  obtain ⟨f, -, rfl⟩ | ⟨-, hc⟩ := exec_cases h
  · exact absurd rfl hne
  · by_contra hother
    push Not at hother
    exact hne (hc.disp hother.1 hother.2)

/-- Of all a STEP can do, only running its instruction changes the display. -/
theorem writer_of_stepEvent_disp_ne (h : stepEvent s = .next t) (hne : t.disp ≠ s.disp) :
    s.Ready ∧ s.pc.toNat ≤ 0xFFE ∧ ∃ i, decode (s.wordAt s.pc.toNat) = .ok i ∧ (i = .cls ∨ ∃ x y n, i = .drw x y n) := by
  obtain ⟨-, e⟩ | ⟨-, -, e⟩ | ⟨-, -, e⟩ | ⟨-, -, _, -, e⟩ | ⟨hready, hpc, i, hd, e⟩ := stepEvent_cases s
  case inr.inr.inr.inr => exact ⟨hready, hpc, i, hd, writer_of_exec_disp_ne (e.symm.trans h) hne⟩
  all_goals cases e.symm.trans h; exact absurd rfl hne

@[simp] theorem keyEvent_disp (code : Fin 16) (down : Bool) (s : State) : (keyEvent code down s).disp = s.disp := by
  obtain ⟨_, -, -, -, e⟩ | ⟨-, e⟩ := keyEvent_cases s code down <;> rw [e]

/-- R175: a rejected LOAD changes no cell. -/
theorem loadEvent_disp_of_not_fits {image : List Byte} (h : imageFits image = false) : (loadEvent image s).disp = s.disp := by
  obtain ⟨hfit, -⟩ | ⟨-, e⟩ := loadEvent_cases image s
  · rw [h] at hfit; cases hfit
  · rw [e]

end

/-- Settles O57, event by event. -/
theorem displayWriters : Obligations.DisplayWriters := by
  intro e s t h hne
  cases e with
  | reset => exact .inl rfl
  | load image =>
    cases h
    exact .inl (Bool.of_not_eq_false fun hover => hne (loadEvent_disp_of_not_fits hover))
  | step r =>
    obtain ⟨u, hu, rfl⟩ := onNext_eq_next h
    obtain ⟨hready, hpc, i, hd, hi⟩ := writer_of_stepEvent_disp_ne hu hne
    exact .inr ⟨r, i, rfl, hready, hpc, hd, hi⟩
  | tick => cases h; exact absurd rfl hne
  | key code down => cases h; exact absurd (keyEvent_disp code down s) hne

end Sys2Proof.Machine
end

section
/-! PROOFS. Timers and keypad (spec/45_timer_keypad.md rules R160 to R166): the tone, the key an operand selects, the wait that LD Vx, K
registers, and what keeps a wait pending. -/

namespace Sys2Proof.Machine

/-! ### Timers and key skips (R160 to R165) -/

/-- R182: the tone sounds while ST is not 0. -/
theorem State.tone_iff (s : State) : s.tone = true ↔ 0 < s.st.toNat := decide_eq_true_iff

/-- D11 (log entry 14): the low 4 bits of a byte are the number of the key. -/
theorem keySelect_val (b : Byte) : (keySelect b).val = b.toNat % 16 := by
  simp only [keySelect, BitVec.val_toFin, BitVec.extractLsb'_toNat, Nat.shiftRight_zero, Nat.reducePow]

/-- Settles O40: LD Vx, DT has the frame of a plain register write, and the tone reads the ST just written. -/
theorem timerInstructions : Obligations.TimerInstructions :=
  fun x s =>
    ⟨⟨_, rfl, s.reg_setReg_same x s.dt, s.setReg_writesOnlyRegs x s.dt⟩, rfl, ⟨_, rfl, rfl, State.tone_iff _⟩,
      decode_encode (.ldVxDt x), decode_encode (.ldDtVx x), decode_encode (.ldStVx x)⟩

/-- Settles O41: both skips read the flag of the selected key, SKNP negated. -/
theorem keySkips : Obligations.KeySkips := by
  intro x s k hk
  have hkey : keySelect (s.reg x) = k := Fin.ext ((keySelect_val _).trans hk.symm)
  subst hkey
  exact ⟨congrArg _ (s.skipIf_of_iff Iff.rfl), congrArg _ (s.skipIf_of_iff (iff_of_eq (Bool.not_eq_true' _))), decode_encode (.skp x),
    decode_encode (.sknp x)⟩

/-- Settles O42: the instruction writes WAIT alone, without reading a key. -/
theorem waitForKeyRegistersWait : Obligations.WaitForKeyRegistersWait :=
  fun x _ => ⟨rfl, decode_encode (.ldVxK x)⟩

/-! ### Lists of events -/

/-- A property of the state that each event of a list keeps, answering next, is kept by the whole list. -/
theorem runEvents_keeps {P : State → Prop} {es : List HostEvent} {s : State}
    (hkeep : ∀ e ∈ es, ∀ t, P t → ∃ u, applyEvent e t = .next u ∧ P u) (hs : P s) : ∃ t, runEvents es s = .next t ∧ P t := by
  induction es generalizing s with
  | nil => exact ⟨s, rfl, hs⟩
  | cons e es ih =>
    obtain ⟨t, ht, hPt⟩ := hkeep e List.mem_cons_self s hs
    obtain ⟨u, hu, hPu⟩ := ih (fun e' he' => hkeep e' (List.mem_cons_of_mem e he')) hPt
    exact ⟨u, by simp only [runEvents, ht, hu], hPu⟩

/-! ### A pending wait (R166) -/

/-- In `t` the wait for Vx is pending in a RUNNING core, with what a program can read of the core as it is in `s`. -/
structure StillWaiting (x : Reg) (s t : State) : Prop where
  wait : t.wait = some x
  run : t.run = .running
  pc : t.pc = s.pc
  v : t.v = s.v
  mem : t.mem = s.mem
  disp : t.disp = s.disp

/-- R166: event by event, what is neither a key-down edge nor a restart leaves a pending wait pending. -/
theorem applyEvent_keeps_wait {x : Reg} {s t : State} {e : HostEvent} (h : StillWaiting x s t) (hedge : isEdgeEvent t e = false)
    (hrestart : isRestart e = false) : ∃ u, applyEvent e t = .next u ∧ StillWaiting x s u := by
  cases e with
  | reset => cases hrestart
  | load image =>
    obtain ⟨hfits, -⟩ | ⟨-, hload⟩ := loadEvent_cases image t
    · cases hfits.symm.trans hrestart
    · exact ⟨_, congrArg Host.Outcome.next hload, { h with }⟩
  | step r =>
    have hgated : ¬ State.Ready { t with rnd := some r } := fun ⟨_, hnone⟩ => by cases h.wait.symm.trans hnone
    exact ⟨_, congrArg (onNext _) (stepEvent_of_not_ready hgated), { h with }⟩
  | tick => exact ⟨_, rfl, { h with }⟩
  | key code down =>
    obtain ⟨_, -, -, hdown, -⟩ | ⟨-, hkey⟩ := keyEvent_cases t code down
    · cases hdown.symm.trans hedge
    · exact ⟨_, congrArg Host.Outcome.next hkey, { h with }⟩

/-- Settles O47, by induction on the events: in no state is one of them a key-down edge or a restart. -/
theorem waitLastsWithoutEdge : Obligations.WaitLastsWithoutEdge := by
  intro es x s hrun hwait hes
  have hkeep : ∀ e ∈ es, ∀ t, StillWaiting x s t → ∃ u, applyEvent e t = .next u ∧ StillWaiting x s u := by
    intro e he t ht
    obtain ⟨r, rfl⟩ | rfl | ⟨c, rfl⟩ := hes e he <;> exact applyEvent_keeps_wait ht rfl rfl
  obtain ⟨t, ht, h⟩ := runEvents_keeps hkeep ⟨hwait, hrun, rfl, rfl, rfl, rfl⟩
  exact ⟨t, ht, h.wait, h.run, h.pc, h.v, h.mem⟩

end Sys2Proof.Machine
end

section
/-! PROOFS. The host's events between the instructions (spec/60_exceptions.md rules R175, R177, R181 to R184, R188, R189): TICK and the
tone, the KEY event, what ends a pending wait, and what ends HALTED. -/

namespace Sys2Proof.Machine

/-! ### TICK (R181) -/

/-- R181: 0 stays 0, as the subtraction of naturals has it. -/
theorem countDown_toNat (b : Byte) : (countDown b).toNat = b.toNat - 1 := by
  unfold countDown
  split
  · next h => subst h; rfl
  · next h => exact BitVec.toNat_sub_of_le (BitVec.le_def.2 (BitVec.toNat_pos_of_ne_zero h))

/-- Settles O43: TICK is two count-downs. -/
theorem tickCountsDownTimers : Obligations.TickCountsDownTimers :=
  fun s => ⟨tickEvent s, rfl, countDown_toNat s.dt, countDown_toNat s.st, rfl⟩

/-! ### RESET and accepted LOAD -/

/-- R200, R201: a restart gives the reset state, but for the image in memory. -/
theorem applyEvent_of_restart {e : HostEvent} (h : isRestart e = true) (s : State) :
    ∃ m, applyEvent e s = .next { resetEvent s with mem := m } := by
  cases e with
  | reset => exact ⟨_, rfl⟩
  | load image =>
    obtain ⟨-, hload⟩ | ⟨hover, -⟩ := loadEvent_cases image s
    · exact ⟨_, congrArg Host.Outcome.next hload⟩
    · cases hover.symm.trans h
  | step _ | tick | key _ _ => cases h

/-! ### The tone (R182) -/

/-- Settles O44: the tone reads ST, so each clause says what its event leaves in ST. -/
theorem toneFollowsSoundTimer : Obligations.ToneFollowsSoundTimer := by
  refine fun s => ⟨s.tone_iff, fun x t h => ?_, fun t h => ?_, fun e t he h => ?_⟩
  · cases h; exact State.tone_iff _
  · cases h
    calc (tickEvent s).tone = true ↔ 0 < (countDown s.st).toNat := State.tone_iff _
      _ ↔ 1 < s.st.toNat := by rw [countDown_toNat, Nat.sub_pos_iff_lt]
  · obtain ⟨m, hm⟩ := applyEvent_of_restart he s
    cases hm.symm.trans h
    rfl

/-! ### The KEY event (R183, R184) -/

theorem isEdge_eq_true_iff {s : State} {code : Fin 16} {down : Bool} :
    isEdge s code down = true ↔ down = true ∧ s.keyDown code = false := by
  rw [isEdge, Bool.and_eq_true, Bool.not_eq_true']

theorem codeByte_toNat (code : Fin 16) : (codeByte code).toNat = code.val :=
  Nat.mod_eq_of_lt (Nat.lt_trans code.isLt (by decide))

theorem keyEvent_key (code : Fin 16) (down : Bool) (s : State) : (keyEvent code down s).key = s.key.set code.val down := by
  obtain ⟨_, -, -, -, e⟩ | ⟨-, e⟩ := keyEvent_cases s code down <;> rw [e]

theorem keyDown_keyEvent (code : Fin 16) (down : Bool) (s : State) (k : Fin 16) :
    (keyEvent code down s).keyDown k = if k = code then down else s.keyDown k := by
  simp only [State.keyDown, keyEvent_key, Vector.getElem_set, Fin.val_inj, eq_comm (a := code)]

/-- R184: the one case of the KEY event that touches more than the flag. -/
theorem keyEvent_of_edge {s : State} {x : Reg} {code : Fin 16} {down : Bool} (hrun : s.run = .running) (hwait : s.wait = some x)
    (hedge : isEdge s code down = true) :
    keyEvent code down s =
      { s with key := s.key.set code.val down, v := s.v.set x.val (codeByte code), wait := none, pc := s.npc } := by
  obtain ⟨y, -, hy, -, e⟩ | ⟨hnot, -⟩ := keyEvent_cases s code down
  · cases hwait.symm.trans hy
    exact e
  · simp [hrun, hwait, hedge] at hnot

/-- Settles O45: the two cases of the KEY event, apart by the run state, the wait and the edge. -/
theorem keyEventEndsWait : Obligations.KeyEventEndsWait := by
  intro code down s
  refine ⟨keyEvent code down s, rfl, keyDown_keyEvent code down s, fun x hrun hwait hdown hup => ?_, fun hother => ?_⟩
  · rw [keyEvent_of_edge hrun hwait (isEdge_eq_true_iff.2 ⟨hdown, hup⟩)]
    exact ⟨(congrArg BitVec.toNat (s.reg_setReg_same x _)).trans (codeByte_toNat code),
      fun r hr => s.reg_setReg_other x r _ (ne_of_beq_false hr), rfl, rfl, rfl⟩
  · obtain ⟨y, hrun, hy, hedge, -⟩ | ⟨-, e⟩ := keyEvent_cases s code down
    · obtain ⟨hdown, hup⟩ := isEdge_eq_true_iff.1 hedge
      simp [hrun, hy, hdown, hup] at hother
    · rw [e]

/-! ### What ends a wait (R166, R188) -/

/-- R166, R188: a key-down edge and a restart each end the wait of a RUNNING core. -/
theorem applyEvent_ends_wait {e : HostEvent} {x : Reg} {s : State} (hrun : s.run = .running) (hwait : s.wait = some x)
    (hends : isEdgeEvent s e = true ∨ isRestart e = true) : ∃ t, applyEvent e s = .next t ∧ t.wait = none := by
  obtain hedge | hrestart := hends
  · cases e with
    | key code down => exact ⟨_, congrArg Host.Outcome.next (keyEvent_of_edge hrun hwait hedge), rfl⟩
    | reset | load _ | step _ | tick => cases hedge
  · obtain ⟨m, hm⟩ := applyEvent_of_restart hrestart s
    exact ⟨_, hm, rfl⟩

/-- Settles O46: an edge and a restart end the wait, and every other event keeps it. -/
theorem waitEndsOnlyByEdgeOrRestart : Obligations.WaitEndsOnlyByEdgeOrRestart := by
  intro e x s hrun hwait
  by_cases hends : isEdgeEvent s e = true ∨ isRestart e = true
  · obtain ⟨t, ht, hnone⟩ := applyEvent_ends_wait hrun hwait hends
    exact ⟨t, ht, iff_of_true hnone hends, fun h h' => by simp [h, h'] at hends⟩
  · obtain ⟨hedge, hrestart⟩ : isEdgeEvent s e = false ∧ isRestart e = false := by simpa using hends
    obtain ⟨t, ht, h⟩ := applyEvent_keeps_wait ⟨hwait, hrun, rfl, rfl, rfl, rfl⟩ hedge hrestart
    have hpending : t.wait ≠ none := by rw [h.wait]; exact Option.some_ne_none x
    exact ⟨t, ht, iff_of_false hpending hends, fun _ _ => ⟨h.wait, h.run, h.pc, h.v, h.mem, h.disp⟩⟩

/-! ### What ends HALTED (R177, R189) -/

/-- `t` is HALTED with the fault record and all a program wrote as they are in `s`. -/
structure StillHalted (s t : State) : Prop where
  run : t.run = .halted
  record : t.faultRecord = s.faultRecord
  pc : t.pc = s.pc
  v : t.v = s.v
  i : t.i = s.i
  sp : t.sp = s.sp
  stack : t.stack = s.stack
  mem : t.mem = s.mem
  disp : t.disp = s.disp
  wait : t.wait = s.wait

/-- R189, event by event: only a restart leaves HALTED. -/
theorem applyEvent_keeps_halted {s t : State} {e : HostEvent} (h : StillHalted s t) (hrestart : isRestart e = false) :
    ∃ u, applyEvent e t = .next u ∧ StillHalted s u := by
  cases e with
  | reset => cases hrestart
  | load image =>
    obtain ⟨hfits, -⟩ | ⟨-, hload⟩ := loadEvent_cases image t
    · cases hfits.symm.trans hrestart
    · exact ⟨_, congrArg Host.Outcome.next hload, { h with }⟩
  | step r =>
    have hgated : ¬ State.Ready { t with rnd := some r } := fun ⟨hrun, _⟩ => by cases h.run.symm.trans hrun
    exact ⟨_, congrArg (onNext _) (stepEvent_of_not_ready hgated), { h with }⟩
  | tick => exact ⟨_, rfl, { h with }⟩
  | key code down =>
    obtain ⟨_, hrun, -⟩ | ⟨-, hkey⟩ := keyEvent_cases t code down
    · cases h.run.symm.trans hrun
    · exact ⟨_, congrArg Host.Outcome.next hkey, { h with }⟩

/-- Settles O49, by induction on the events; a restart gives the reset state, which is RUNNING with no record. -/
theorem haltedUntilRestart : Obligations.HaltedUntilRestart := by
  refine fun s hrun => ⟨fun es hes => ?_, fun e he => ?_⟩
  · have hkeep : ∀ e ∈ es, ∀ t, StillHalted s t → ∃ u, applyEvent e t = .next u ∧ StillHalted s u :=
      fun e he _ ht => applyEvent_keeps_halted ht (hes e he)
    obtain ⟨t, ht, h⟩ := runEvents_keeps hkeep ⟨hrun, rfl, rfl, rfl, rfl, rfl, rfl, rfl, rfl, rfl⟩
    exact ⟨t, ht, h.run, h.record, h.pc, h.v, h.i, h.sp, h.stack, h.mem, h.disp, h.wait⟩
  · obtain ⟨m, hm⟩ := applyEvent_of_restart he s
    exact ⟨_, hm, rfl, rfl⟩

end Sys2Proof.Machine
end

section
/-! PROOFS. Every step answers a next state (spec/70_reset_and_hazards.md rule R209), whichever event it applies, and what a LOAD leaves
in memory (rule R201). -/

namespace Sys2Proof.Machine

/-! ### Every step answers a next state (R209) -/

/-- Log entry 1: with events queued a step is the oldest of them. -/
theorem step_of_queued_event {s : State} {e : HostEvent} {rest : List HostEvent} (h : s.events = e :: rest) :
    step s = applyEvent e { s with events := rest } := by
  simp only [step, h]

theorem stepEvent_answers (s : State) : ∃ t, stepEvent s = .next t := by
  obtain ⟨-, e⟩ | ⟨-, -, e⟩ | ⟨-, -, e⟩ | ⟨-, -, _, -, e⟩ | ⟨-, -, i, -, e⟩ := stepEvent_cases s
  case inr.inr.inr.inr => rw [e]; exact exec_answers i s
  all_goals exact ⟨_, e⟩

/-- Every event but STEP is a function of states. -/
theorem applyEvent_answers (e : HostEvent) (s : State) : ∃ t, applyEvent e s = .next t := by
  cases e with
  | step r =>
    obtain ⟨t, ht⟩ := stepEvent_answers { s with rnd := some r }
    exact ⟨_, congrArg (onNext _) ht⟩
  | reset | load _ | tick | key _ _ => exact ⟨_, rfl⟩

/-- Settles O2. -/
theorem stepAppliesOldestEvent : Obligations.StepAppliesOldestEvent :=
  fun _ _ _ => step_of_queued_event

/-- Settles O6: a step is the STEP event or the oldest queued event, and each answers a next state. -/
theorem stepAnswersNextEverywhere : Obligations.StepAnswersNextEverywhere := by
  intro s
  cases he : s.events with
  | nil => rw [step_of_no_events he]; exact stepEvent_answers s
  | cons e rest => rw [step_of_queued_event he]; exact applyEvent_answers e _

/-! ### LOAD (R201) -/

theorem imageFits_iff (image : List Byte) : imageFits image = true ↔ image.length ≤ 3584 := decide_eq_true_iff

/-- Settles O51: the image is a run stored at 0x200 in reset's memory, and too long an image is rejected before any change. -/
theorem loadEventPlacesImage : Obligations.LoadEventPlacesImage := by
  refine fun image s => ⟨fun hlen => ?accepted, fun hlen => ?rejected⟩
  case accepted =>
    have hroom : Config.progBase + image.length ≤ 0x1000 := Nat.add_le_add_left hlen 0x200
    obtain ⟨-, e⟩ | ⟨hover, -⟩ := loadEvent_cases image s
    · refine ⟨_, congrArg Host.Outcome.next e, fun k hk => ?inside, fun a ha => ?outside, ?canonical, rfl⟩
      case inside => exact Memory.read_writeRun_inside [] Config.progBase k image hroom Memory.nil_wf hk
      case outside => exact Memory.read_writeRun_outside [] Config.progBase a image hroom Memory.nil_wf ha
      case canonical => exact Memory.writeRun_wf [] Config.progBase image hroom Memory.nil_wf
    · cases hover.symm.trans ((imageFits_iff image).2 hlen)
  case rejected =>
    obtain ⟨hfits, -⟩ | ⟨-, e⟩ := loadEvent_cases image s
    · exact absurd ((imageFits_iff image).1 hfits) (Nat.not_le_of_gt hlen)
    · exact congrArg Host.Outcome.next e

end Sys2Proof.Machine
end

section
/-! PROOFS. The copy and the bitwise operations (spec/42_alu.md rules R122 to R125): plain register writes, which keep VF (R134). -/

namespace Sys2Proof.Machine

/-- Settles O22: each is one plain write of Vx, and a bit of the result is the operation on the operands' bits. -/
theorem copyAndLogicKeepVf : Obligations.CopyAndLogicKeepVf := by
  refine fun x y s => ⟨⟨_, rfl, ?copy, s.setReg_writesOnlyRegs x _⟩, ⟨_, rfl, fun k => ?or, s.setReg_writesOnlyRegs x _⟩,
    ⟨_, rfl, fun k => ?and, s.setReg_writesOnlyRegs x _⟩, ⟨_, rfl, fun k => ?xor, s.setReg_writesOnlyRegs x _⟩,
    decode_encode (.ldReg x y), decode_encode (.orReg x y), decode_encode (.andReg x y), decode_encode (.xorReg x y)⟩
  case copy => rw [State.reg_advance, State.reg_setReg_same]
  case or => rw [State.reg_advance, State.reg_setReg_same, BitVec.getLsbD_or]
  case and => rw [State.reg_advance, State.reg_setReg_same, BitVec.getLsbD_and]
  case xor => rw [State.reg_advance, State.reg_setReg_same, BitVec.getLsbD_xor]

end Sys2Proof.Machine
end
